-- ==== Sys2Proof/Word.lean ====
section
/-! DEFINITION. The two word types of the CORE: the byte and the pointer (spec R8, R10). -/

namespace Sys2Proof

/-- A byte: the width of a memory cell, of an opcode and of an operand (R8, R41, R60), and on this hardware of a general
register. Every value is unsigned (R10). -/
abbrev Byte := BitVec 8

/-- The type of the program counter and the stack pointer of this hardware, and of the two numeric fields of its fault
record (R8, R23, R26, R30). A pointer's legal values are 0 to 256. -/
abbrev Ptr := BitVec 9

/-- `zext_N` of a byte or a register's value (R10): the pointer with that value. -/
def Ptr.ofByte {w width : Nat} (v : BitVec w) : BitVec width := v.setWidth width

end Sys2Proof
end

