-- ==== Sys2Proof/Machine/State.lean ====
section
/-! DEFINITION. The state of the CORE (spec 10_state.md): everything rules R20 to R34 give it and, by R35, nothing
else; its reset values (R36); and the reasons for which a step of the model could stop. -/

namespace Sys2Proof.Machine

/-- The run state (R29). `HALTED` and `FAULTED` are terminal (R80). -/
inductive Status where
  | running
  | halted
  | faulted
  deriving DecidableEq, Repr

/-- The fault causes of R181, in the order of their codes 0 to 7. -/
inductive Cause where
  /-- `NONE`: no fault has been raised. -/
  | none
  | divideByZero
  | unknownOpcode
  | memoryBounds
  | stackOverflow
  | stackUnderflow
  | registerIndex
  | returnAddress
  deriving DecidableEq, Repr

/-- The fault record (R30). Its numeric fields are as wide as the program counter (notes/assumptions/15). -/
structure FaultRecord (pcWidth : Nat := 9) where
  /-- `fault.cause` -/
  cause : Cause
  /-- `fault.pc`: the `pc` of the faulting step -/
  pc : BitVec pcWidth
  /-- `fault.value`: what the fault records -/
  value : BitVec pcWidth
  deriving DecidableEq, Repr

/-- The flag register (R28): `fl.E`, `fl.L`, `fl.G`. -/
structure Flags where
  /-- `fl.E`, Equal -/
  e : Bool
  /-- `fl.L`, Less-than -/
  l : Bool
  /-- `fl.G`, Greater-than -/
  g : Bool
  deriving DecidableEq, Repr

/-- The memory array (R33), as the list of the cells that do not hold `Memory.unlisted` (`Ops.lean`): addresses
strictly rising below `MEM_SIZE`, no listed cell equal to what an unlisted one reads as (`Memory.wf`). -/
abbrev Memory (_memSize : Nat := 256) : Type := List Host.Cell

/-- The whole state of the CORE (R20 to R35). Its arguments are the sizes of R9, `MEM_SIZE`, `NUM_REGS`, `REG_WIDTH`,
`PC_WIDTH` and `SP_WIDTH`, each with R9's value for this hardware as its default: `State` alone is this hardware's
state. The operations and the meanings take a state of any sizes; no option of the machine changes them (R4, R7, R8).
`MEM_SIZE` bounds the addresses the operations reach. (notes/assumptions/15) -/
structure State (memSize : Nat := 256) (numRegs : Nat := 8) (regWidth : Nat := 8) (pcWidth : Nat := 9)
    (spWidth : Nat := 9) where
  /-- `x[0]` to `x[7]` (R20, R21). -/
  regs : Vector (BitVec regWidth) numRegs
  /-- The program counter, 0 to 256 (R23). -/
  pc : BitVec pcWidth
  /-- The stack pointer, 0 to 256 (R26). -/
  sp : BitVec spWidth
  /-- The flag register (R28). -/
  flags : Flags
  /-- The run state (R29). -/
  status : Status
  /-- The fault record (R30). -/
  fault : FaultRecord pcWidth
  /-- Memory, for program, data and stack (R33, R40). -/
  mem : Memory memSize
  /-- The output channel, oldest value first (R34). -/
  output : List Byte
  deriving DecidableEq, Repr

/-- Why a step of the model would stop. There is NO reason: every fault of the CORE is an effect the spec describes
(R184: `status` and the fault record are written), so it is a next state, and no rule leaves an effect undefined.
(notes/assumptions/4) -/
inductive Fault
  deriving DecidableEq, Repr

/-- Why the model gives no meaning. -/
inductive Refusal where
  /-- Raised by an arm of `exec` for an instruction that has no meaning yet (safe); every arm has its meaning, so
  nothing raises it. -/
  | notModelled (mnemonic : String)
  deriving DecidableEq, Repr

/-- What an instruction or a step answers, for any sizes. -/
abbrev Answer (memSize numRegs regWidth pcWidth spWidth : Nat) :=
  Host.Outcome (State memSize numRegs regWidth pcWidth spWidth) Fault Refusal

/-- The state after reset for any sizes (R36, R210): memory all 0 and so with nothing listed, the registers, flags, `pc`
and the fault record 0, `sp` = `SP_RESET`, `RUNNING`, no output. -/
def State.resetTo {memSize numRegs regWidth pcWidth spWidth : Nat} (spReset : Nat) :
    State memSize numRegs regWidth pcWidth spWidth where
  regs := Vector.replicate numRegs 0
  pc := 0
  sp := BitVec.ofNat spWidth spReset
  flags := ⟨false, false, false⟩
  status := .running
  fault := ⟨.none, 0, 0⟩
  mem := []
  output := []

/-- The state after reset of this hardware, whose `SP_RESET` is 256 (R9, R36). -/
def State.reset : State := State.resetTo (spReset := 256)

end Sys2Proof.Machine
end

