-- ==== Sys2Proof/Machine/Flags.lean ====
section
/-! DEFINITION. The flag computation, which only CMP has (spec R28, R102, R116). -/

namespace Sys2Proof.Machine

/-- The flags of a compare: Equal, Less-than and Greater-than as unsigned values (R101, R116, R118). -/
def compareFlags {W : Nat} (va vb : BitVec W) : Flags := ⟨va == vb, va.ult vb, vb.ult va⟩

end Sys2Proof.Machine
end

