-- ==== Sys2Proof/Machine/Alu.lean ====
section
/-! DEFINITION. The ALU block (spec R100, R101): a combinational function of an operation tag and one or two
register values. -/

namespace Sys2Proof.Machine

/-- The twelve operation tags, each with its operand values of `REG_WIDTH` bits: one for NOT, two for the others (R86,
R100). -/
inductive AluOp (W : Nat := 8) where
  | add (va vb : BitVec W)
  | sub (va vb : BitVec W)
  | mul (va vb : BitVec W)
  | div (va vb : BitVec W)
  | mod (va vb : BitVec W)
  | and (va vb : BitVec W)
  | or (va vb : BitVec W)
  | xor (va vb : BitVec W)
  | not (va : BitVec W)
  | shl (va vb : BitVec W)
  | shr (va vb : BitVec W)
  | cmp (va vb : BitVec W)
  deriving DecidableEq, Repr

/-- The ALU's output (R100). -/
inductive AluOut (W : Nat := 8) where
  /-- the value to write to register `a` -/
  | result (v : BitVec W)
  /-- the three flags, from CMP -/
  | flags (f : Flags)
  /-- the second operand of DIV or MOD is 0 -/
  | divideByZero
  deriving DecidableEq, Repr

/-- The ALU's function (R101). The shift count is the whole byte, so a count of 8 or more gives 0 (R114, R115). -/
def alu {W : Nat} : AluOp W → AluOut W
  | .add va vb => .result (va + vb)
  | .sub va vb => .result (va - vb)
  | .mul va vb => .result (va * vb)
  | .div va vb => if vb = 0 then .divideByZero else .result (va / vb)
  | .mod va vb => if vb = 0 then .divideByZero else .result (va % vb)
  | .and va vb => .result (va &&& vb)
  | .or va vb => .result (va ||| vb)
  | .xor va vb => .result (va ^^^ vb)
  | .not va => .result (~~~ va)
  | .shl va vb => .result (va <<< vb.toNat)
  | .shr va vb => .result (va >>> vb.toNat)
  | .cmp va vb => .flags (compareFlags va vb)

end Sys2Proof.Machine
end

