-- ==== Sys2Proof/Config.lean ====
section
/-! DEFINITION. The arguments of the model among the parameters of R9: `OPCODE_MAP`, `DECODE_SUB_DIV` and
`DEFAULT_PROGRAM`. The sizes of R9 are arguments of the type `State`; the whole table of R9 is
`MachineParams` (`Machine/Sized.lean`). -/

namespace Sys2Proof

/-- The closed set of the 22 mnemonics of the opcode map (R62), the keys of `OPCODE_MAP`. -/
inductive Mnemonic where
  | hlt | ret | push | pop | prn | call | jmp | jeq | jne | not | ldi
  | add | sub | mul | div | mod | cmp | and | or | xor | shl | shr
  deriving DecidableEq, Repr

/-- Every mnemonic once, in the order of the table of R62. -/
def Mnemonic.all : List Mnemonic :=
  [.hlt, .ret, .push, .pop, .prn, .call, .jmp, .jeq, .jne, .not, .ldi,
   .add, .sub, .mul, .div, .mod, .cmp, .and, .or, .xor, .shl, .shr]

/-- The parameters that no type depends on (R9): the two options of the machine (R4), which the decoder takes, and
the host's default program. They are fixed for a machine and are no state. Their values for this hardware are
`Params.thisHardware` in `Decode.lean`. -/
structure Params where
  /-- `OPCODE_MAP`: the opcode byte of each mnemonic (R61, R62). -/
  opcodeMap : Mnemonic → Byte
  /-- `DECODE_SUB_DIV`: whether the SUB and DIV bytes decode (R9, R67). -/
  decodeSubDiv : Bool
  /-- `DEFAULT_PROGRAM`: the image the host loads when no program is supplied; the CORE never reads it (R9, R215). -/
  defaultProgram : List Byte

/-- Distinct mnemonics have distinct opcode bytes, as the default `OPCODE_MAP` has (R66). -/
def Params.Distinct (p : Params) : Prop :=
  ∀ m n, p.opcodeMap m = p.opcodeMap n → m = n

/-- The value of `DEFAULT_PROGRAM` for this hardware. The spec leaves it OPEN (R9, D19, U11), so it is a constant without
a body: nothing can be proved about its bytes or its length. (notes/assumptions/8) -/
opaque Config.defaultProgram : List Byte

end Sys2Proof
end

