-- ==== Sys2Proof/Syntax.lean ====
section
/-! DEFINITION. The instructions of the CORE: one constructor for each row of spec/opcode_table.json (spec R62).
An operand is the whole operand byte, as the instruction rules take it (R14, R64): `a` at `pc + 1`, `b` at `pc + 2`.
Whether a register operand names a register is checked when the instruction executes (phase V, R88). -/

namespace Sys2Proof

/-- The 22 instructions (R62). -/
inductive Instr where
  /-- HLT (R92). -/
  | hlt
  /-- RET (R162). -/
  | ret
  /-- PUSH Ra (R145). -/
  | push (a : Byte)
  /-- POP Ra (R146). -/
  | pop (a : Byte)
  /-- PRN Ra (R90). -/
  | prn (a : Byte)
  /-- CALL Ra (R161). -/
  | call (a : Byte)
  /-- JMP Ra (R163). -/
  | jmp (a : Byte)
  /-- JEQ Ra (R164). -/
  | jeq (a : Byte)
  /-- JNE Ra (R165). -/
  | jne (a : Byte)
  /-- NOT Ra (R113). -/
  | not (a : Byte)
  /-- LDI Ra,b with the immediate byte `b` (R89). -/
  | ldi (a b : Byte)
  /-- ADD Ra,Rb (R105). -/
  | add (a b : Byte)
  /-- SUB Ra,Rb (R106), decoded only when `DECODE_SUB_DIV` is true. -/
  | sub (a b : Byte)
  /-- MUL Ra,Rb (R107). -/
  | mul (a b : Byte)
  /-- DIV Ra,Rb (R108), decoded only when `DECODE_SUB_DIV` is true. -/
  | div (a b : Byte)
  /-- MOD Ra,Rb (R109). -/
  | mod (a b : Byte)
  /-- CMP Ra,Rb (R116). -/
  | cmp (a b : Byte)
  /-- AND Ra,Rb (R110). -/
  | and (a b : Byte)
  /-- OR Ra,Rb (R111). -/
  | or (a b : Byte)
  /-- XOR Ra,Rb (R112). -/
  | xor (a b : Byte)
  /-- SHL Ra,Rb (R114). -/
  | shl (a b : Byte)
  /-- SHR Ra,Rb (R115). -/
  | shr (a b : Byte)
  deriving DecidableEq, Repr

/-- The instruction's row of the opcode map. -/
def Instr.mnemonic : Instr → Mnemonic
  | .hlt => .hlt | .ret => .ret | .push _ => .push | .pop _ => .pop | .prn _ => .prn | .call _ => .call
  | .jmp _ => .jmp | .jeq _ => .jeq | .jne _ => .jne | .not _ => .not | .ldi _ _ => .ldi
  | .add _ _ => .add | .sub _ _ => .sub | .mul _ _ => .mul | .div _ _ => .div | .mod _ _ => .mod
  | .cmp _ _ => .cmp | .and _ _ => .and | .or _ _ => .or | .xor _ _ => .xor | .shl _ _ => .shl | .shr _ _ => .shr

/-- The operand bytes in the order they stand in memory (R60). -/
def Instr.operands : Instr → List Byte
  | .hlt | .ret => []
  | .push a | .pop a | .prn a | .call a | .jmp a | .jeq a | .jne a | .not a => [a]
  | .ldi a b | .add a b | .sub a b | .mul a b | .div a b | .mod a b | .cmp a b
  | .and a b | .or a b | .xor a b | .shl a b | .shr a b => [a, b]

end Sys2Proof
end

