-- ==== Sys2Proof/WellFormed.lean ====
section
/-! DEFINITION. Well-formed instructions: every register operand names one of `R0` to `R7` (spec R64, R88). -/

namespace Sys2Proof

/-- The operand bytes that phase V checks, in its order (R88): `a` of every format with an operand, and `b` of format
RR. The immediate `b` of LDI is a value, not an index, and is not among them. -/
def Instr.regOperands : Instr → List Byte
  | .hlt | .ret => []
  | .push a | .pop a | .prn a | .call a | .jmp a | .jeq a | .jne a | .not a | .ldi a _ => [a]
  | .add a b | .sub a b | .mul a b | .div a b | .mod a b | .cmp a b
  | .and a b | .or a b | .xor a b | .shl a b | .shr a b => [a, b]

/-- Every register operand is below `NUM_REGS`, on this hardware 0 to 7. -/
def Instr.wellFormed (i : Instr) (numRegs : Nat := 8) : Bool := i.regOperands.all fun a => decide (a.toNat < numRegs)

end Sys2Proof
end

