-- ==== Sys2Proof/Decode.lean ====
section
/-! DEFINITION. Instruction encoding (spec 30_encoding.md): the formats, the opcode map of this hardware, the decoder
(phases D and O of R82, total on any bytes, rejecting by name) and the encoder. -/

namespace Sys2Proof

/-- The four formats of R60. -/
inductive Format where
  /-- no operand -/
  | n
  /-- one register -/
  | r
  /-- two registers -/
  | rr
  /-- a register and an immediate -/
  | ri
  deriving DecidableEq, Repr

/-- The format column of R62. -/
def Mnemonic.format : Mnemonic → Format
  | .hlt | .ret => .n
  | .push | .pop | .prn | .call | .jmp | .jeq | .jne | .not => .r
  | .ldi => .ri
  | .add | .sub | .mul | .div | .mod | .cmp | .and | .or | .xor | .shl | .shr => .rr

/-- The length in bytes of a format (R60). -/
def Format.width : Format → Nat
  | .n => 1
  | .r => 2
  | .rr | .ri => 3

/-- The width column of R62: the opcode alone determines the length (R69). -/
def Mnemonic.width (m : Mnemonic) : Nat := m.format.width

/-- The width of an instruction (R16). -/
def Instr.width (i : Instr) : Nat := i.mnemonic.width

/-- The default `OPCODE_MAP` (R62). PRESUMED: the spec takes these bytes from general knowledge of the LS-8, not from
its source (R61, G1; notes/assumptions/1). -/
def defaultOpcodeMap : Mnemonic → Byte
  | .hlt => 0x01
  | .ret => 0x11
  | .push => 0x45
  | .pop => 0x46
  | .prn => 0x47
  | .call => 0x50
  | .jmp => 0x54
  | .jeq => 0x55
  | .jne => 0x56
  | .not => 0x69
  | .ldi => 0x82
  | .add => 0xA0
  | .sub => 0xA1
  | .mul => 0xA2
  | .div => 0xA3
  | .mod => 0xA4
  | .cmp => 0xA7
  | .and => 0xA8
  | .or => 0xAA
  | .xor => 0xAB
  | .shl => 0xAC
  | .shr => 0xAD

/-- The parameter values for this hardware (R9): the default map, `DECODE_SUB_DIV` = false (notes/assumptions/2), and the
open `DEFAULT_PROGRAM` (notes/assumptions/8). -/
def Params.thisHardware : Params := ⟨defaultOpcodeMap, false, Config.defaultProgram⟩

/-- Whether a row of the opcode map takes part in decoding: SUB and DIV only with `DECODE_SUB_DIV` (R62, R67). -/
def Params.decodes (p : Params) : Mnemonic → Bool
  | .sub | .div => p.decodeSubDiv
  | .hlt | .ret | .push | .pop | .prn | .call | .jmp | .jeq | .jne | .not | .ldi
  | .add | .mul | .mod | .cmp | .and | .or | .xor | .shl | .shr => true

/-- Phase D: the whole opcode byte against every entry of `OPCODE_MAP`; the entry, if exactly one matches (R66, R67).
DESIGN CHOICE for a map with a repeated byte, on which R66 is silent (notes/assumptions/3): the rows that do not take
part in decoding, SUB and DIV with `DECODE_SUB_DIV` false, are left out before the matches are counted; a byte that two or
more of the remaining rows have decodes as nothing, and one that a single remaining row shares with a row left out decodes
as that single row. -/
def decodeOpcode (p : Params) (op : Byte) : Option Mnemonic :=
  match Mnemonic.all.filter fun m => p.decodes m && p.opcodeMap m == op with
  | [m] => some m
  | _ => none

/-- The instruction of a row with its operand bytes; an operand the row's format lacks is not looked at. -/
def Mnemonic.toInstr (m : Mnemonic) (a b : Byte) : Instr :=
  match m with
  | .hlt => .hlt
  | .ret => .ret
  | .push => .push a
  | .pop => .pop a
  | .prn => .prn a
  | .call => .call a
  | .jmp => .jmp a
  | .jeq => .jeq a
  | .jne => .jne a
  | .not => .not a
  | .ldi => .ldi a b
  | .add => .add a b
  | .sub => .sub a b
  | .mul => .mul a b
  | .div => .div a b
  | .mod => .mod a b
  | .cmp => .cmp a b
  | .and => .and a b
  | .or => .or a b
  | .xor => .xor a b
  | .shl => .shl a b
  | .shr => .shr a b

/-- Why bytes give no instruction. -/
inductive Reject where
  /-- Byte `k` of the instruction (0 the opcode) does not exist: the step raises `MEMORY_BOUNDS` (R82 phases F, O). -/
  | noByte (k : Nat)
  /-- The opcode byte matches no entry: the step raises `UNKNOWN_OPCODE` (R67). -/
  | unknownOpcode (op : Byte)
  deriving DecidableEq, Repr

/-- Phases F, D and O of R82 over any source of bytes: `byteAt k` is byte `k` of the instruction, if there is one.
Exactly the instruction's own bytes are asked for, the opcode first, then `a`, then `b` (R69, R87). -/
def decodeFrom (p : Params) (byteAt : Nat → Option Byte) : Except Reject Instr :=
  match byteAt 0 with
  | none => .error (.noByte 0)
  | some op =>
    match decodeOpcode p op with
    | none => .error (.unknownOpcode op)
    | some m =>
      match m.format with
      | .n => .ok (m.toInstr 0 0)
      | .r =>
        match byteAt 1 with
        | none => .error (.noByte 1)
        | some a => .ok (m.toInstr a 0)
      | .rr | .ri =>
        match byteAt 1 with
        | none => .error (.noByte 1)
        | some a =>
          match byteAt 2 with
          | none => .error (.noByte 2)
          | some b => .ok (m.toInstr a b)

/-- The decoder over a list of bytes: the first instruction and the bytes after it, or the reason there is none. -/
def decode (p : Params) (bytes : List Byte) : Except Reject (Instr × List Byte) :=
  match decodeFrom p fun k => bytes[k]? with
  | .ok i => .ok (i, bytes.drop i.width)
  | .error r => .error r

/-- The encoder: `OPCODE_MAP` of the mnemonic, then the operand bytes (R60, R70). -/
def encode (p : Params) (i : Instr) : List Byte := p.opcodeMap i.mnemonic :: i.operands

/-- The bytes of a word of spec/opcode_table.json: byte `k` is bits `8k+7` to `8k`, the bits from `nbits` on are 0, and
there are as many bytes as the longest instruction has. -/
def tableBytes (nbits w : Nat) : List Byte :=
  [0, 1, 2].map fun k => BitVec.ofNat 8 ((w % 2 ^ nbits) >>> (8 * k))

/-- The instruction this hardware's decoder reads from a word of the opcode table. -/
def decodeTableWord (nbits w : Nat) : Option Instr :=
  match decode Params.thisHardware (tableBytes nbits w) with
  | .ok (i, _) => some i
  | .error _ => none

end Sys2Proof
end

