-- ==== Sys2Proof/Machine/Ops.lean ====
section
/-! DEFINITION. The named operations over the state: registers (spec R11), memory (R12), the stack primitives (R141,
R142), output (R91), the advance of `pc` (R84), raising a fault (R13, R184) and the instruction fetch (R82). -/

namespace Sys2Proof.Machine

/-! The sizes of R9: `M` is `MEM_SIZE`, `N` `NUM_REGS`, `W` `REG_WIDTH`, `P` `PC_WIDTH` and `S` `SP_WIDTH`. -/
variable {M N W P S : Nat}

/-! ### Memory -/

/-- What a cell that is not listed reads as: 0, the reset contents (R33, R55). -/
def Memory.unlisted : Byte := 0

/-- The byte of cell `k`. -/
def Memory.read : Memory M → Nat → Byte
  | [], _ => Memory.unlisted
  | (a, v) :: m, k => if a = k then v else Memory.read m k

/-- Cell `k` becomes `v`; the canonical form is kept, so a cell set to `Memory.unlisted` is not listed. -/
def Memory.write : Memory M → Nat → Byte → Memory M
  | [], k, v => if v = Memory.unlisted then [] else [(k, v)]
  | (a, w) :: m, k, v =>
    if a < k then (a, w) :: Memory.write m k v
    else if a = k then if v = Memory.unlisted then m else (k, v) :: m
    else if v = Memory.unlisted then (a, w) :: m else (k, v) :: (a, w) :: m

/-- The listed addresses are at least `lo`, strictly rising and below `MEM_SIZE`, and no listed cell holds
`Memory.unlisted`. -/
def Memory.wfFrom : Nat → Memory M → Bool
  | _, [] => true
  | lo, (a, v) :: m =>
    decide (lo ≤ a) && decide (a < M) && decide (v ≠ Memory.unlisted) && Memory.wfFrom (a + 1) m

/-- The canonical form of memory. -/
def Memory.wf (m : Memory M) : Bool := Memory.wfFrom 0 m

/-- `MemRead(addr, 1)` (R12): nothing for an address that does not exist. -/
def State.memRead (s : State M N W P S) (addr : Nat) : Option Byte :=
  if addr < M then some (Memory.read s.mem addr) else none

/-- `MemWrite(addr, 1, v)` (R12): nothing for an address that does not exist. -/
def State.memWrite (s : State M N W P S) (addr : Nat) (v : Byte) : Option (State M N W P S) :=
  if addr < M then some { s with mem := Memory.write s.mem addr v } else none

/-- The bytes placed in the cells from `addr` on, one a cell; a byte past the last cell has no cell and is dropped.
The load interface (R214) and `withFetchWord` are made of it. (notes/assumptions/7) -/
def State.placeBytes (s : State M N W P S) (addr : Nat) : List Byte → State M N W P S
  | [] => s
  | v :: bytes => State.placeBytes ((s.memWrite addr v).getD s) (addr + 1) bytes

/-- The load of an image from address 0 (R214): nothing for an image that `MEM_SIZE` cells cannot hold. -/
def State.load (s : State M N W P S) (image : List Byte) : Option (State M N W P S) :=
  if image.length ≤ M then some (s.placeBytes 0 image) else none

/-! ### Registers, flags, program counter, output -/

/-- `x[i]` (R11). -/
def State.reg (s : State M N W P S) (i : Fin N) : BitVec W := s.regs[i]

/-- `x[i] <- v` (R11, R21). -/
def State.setReg (s : State M N W P S) (i : Fin N) (v : BitVec W) : State M N W P S := { s with regs := s.regs.set i v }

/-- The three flags written at once (R116). -/
def State.setFlags (s : State M N W P S) (f : Flags) : State M N W P S := { s with flags := f }

/-- `pc <- t` for a target, the value of a register or a byte popped from the stack (R160). -/
def State.setPc {w : Nat} (s : State M N W P S) (t : BitVec w) : State M N W P S := { s with pc := Ptr.ofByte t }

/-- Phase P for an instruction of width `w` (R84). The sum is exact when the instruction lies in memory, and then at
most 256; at a `pc` no fetch succeeds at it is taken modulo 2 to the `PC_WIDTH`, 512 here (notes/assumptions/6). -/
def State.advance (s : State M N W P S) (w : Nat) : State M N W P S := { s with pc := s.pc + BitVec.ofNat P w }

/-- `Output(v)`: the value joins the end of the output channel (R90, R91). -/
def State.emit (s : State M N W P S) (v : Byte) : State M N W P S := { s with output := s.output ++ [v] }

/-- `status <- HALTED` (R92). -/
def State.halt (s : State M N W P S) : State M N W P S := { s with status := .halted }

/-! ### Faults -/

/-- The run state a fault leads to (R181, R184). -/
def Cause.statusAfter : Cause → Status
  | .divideByZero => .halted
  | .none | .unknownOpcode | .memoryBounds | .stackOverflow | .stackUnderflow | .registerIndex | .returnAddress =>
    .faulted

/-- Fault entry, the one operation by which any fault is taken (R13, R184): the cause, the `pc` of the faulting
instruction and the value are recorded, `status` is set, and nothing else changes (R185). -/
def State.raise (s : State M N W P S) (c : Cause) (v : BitVec P) : State M N W P S :=
  { s with status := c.statusAfter, fault := ⟨c, s.pc, v⟩ }

/-- `raise c(v)` as the end of a step: the next state is the fault entry of the state the step began in. -/
def raised (c : Cause) (v : BitVec P) (s : State M N W P S) : Answer M N W P S := .next (s.raise c v)

/-! ### The Stack Manager -/

/-- The push primitive (R141): nothing at `sp` = 0, where `sp - 1` is no address; by R12 nothing either at an `sp`
above 256, a value the register never holds (notes/assumptions/5). -/
def State.push (s : State M N W P S) (v : Byte) : Option (State M N W P S) :=
  if s.sp = 0 then none else State.memWrite { s with sp := s.sp - 1 } (s.sp - 1).toNat v

/-- The pop primitive (R142): nothing at `sp` = 256, which is no address; by R12 nothing either above it. -/
def State.pop (s : State M N W P S) : Option (Byte × State M N W P S) :=
  match s.memRead s.sp.toNat with
  | none => none
  | some v => some (v, { s with sp := s.sp + 1 })

/-! ### Instruction fetch -/

/-- Byte `k` of the instruction at `pc` (R60), if that address exists. -/
def State.instrByte (s : State M N W P S) (k : Nat) : Option Byte := s.memRead (s.pc.toNat + k)

/-- Phases F, D and O at `pc` (R82). -/
def State.fetch (p : Params) (s : State M N W P S) : Except Reject Instr := decodeFrom p s.instrByte

/-- The fault of a fetch that gives no instruction (R82, R181): `MEMORY_BOUNDS` with the address of the missing byte,
`UNKNOWN_OPCODE` with the opcode byte. -/
def fetchFault (r : Reject) (s : State M N W P S) : Answer M N W P S :=
  match r with
  | .noByte k => raised .memoryBounds (BitVec.ofNat P (s.pc.toNat + k)) s
  | .unknownOpcode op => raised .unknownOpcode (Ptr.ofByte op) s

/-- One requested step, for the execution `run` of a decoded instruction (R81, R82): nothing happens unless the CORE is
`RUNNING`; else the instruction at `pc` is fetched and run, or the fetch's fault is taken. -/
def State.stepBy (run : Instr → State M N W P S → Answer M N W P S) (p : Params)
    (s : State M N W P S) : Answer M N W P S :=
  match s.status with
  | .halted | .faulted => .next s
  | .running =>
    match s.fetch p with
    | .error r => fetchFault r s
    | .ok i => run i s

end Sys2Proof.Machine
end

