-- ==== Sys2Proof/Machine/Operands.lean ====
section
/-! DEFINITION. Register operands: phase V of the step (spec R64, R82, R88). -/

namespace Sys2Proof.Machine

/-! The sizes of R9: `M` is `MEM_SIZE`, `N` `NUM_REGS`, `W` `REG_WIDTH`, `P` `PC_WIDTH` and `S` `SP_WIDTH`. -/
variable {M N W P S : Nat}

/-- The register a whole operand byte selects: 0 to 7 name `R0` to `R7`, any other byte names none; the byte is never
masked (R64). -/
def regIndex (a : Byte) : Option (Fin N) :=
  if h : a.toNat < N then some ⟨a.toNat, h⟩ else none

/-- Phase V for one register operand: the rest of the instruction with the register it selects, or `REGISTER_INDEX`
with the operand byte (R88). -/
def withReg (a : Byte) (s : State M N W P S) (k : Fin N → Answer M N W P S) : Answer M N W P S :=
  match regIndex a with
  | none => raised .registerIndex (Ptr.ofByte a) s
  | some i => k i

end Sys2Proof.Machine
end

