-- ==== Sys2Proof/Machine/AluInstr.lean ====
section
/-! DEFINITION. The ALU instructions (spec 41_alu.md): ADD, SUB, MUL, DIV, MOD, AND, OR, XOR, NOT, SHL, SHR, CMP. -/

namespace Sys2Proof.Machine

/-! The sizes of R9: `M` is `MEM_SIZE`, `N` `NUM_REGS`, `W` `REG_WIDTH`, `P` `PC_WIDTH` and `S` `SP_WIDTH`. -/
variable {M N W P S : Nat}

/-- What the Control Unit does with the ALU's output (R100): it writes the result to register `i`, or the flags, and
advances past the instruction of width `w`; a zero divisor raises `DIVIDE_BY_ZERO` with the divisor's register index
`b` (R108, R109). -/
def aluCommit (i : Fin N) (b : Byte) (w : Nat) (s : State M N W P S) : AluOut W → Answer M N W P S
  | .result v => .next ((s.setReg i v).advance w)
  | .flags f => .next ((s.setFlags f).advance w)
  | .divideByZero => raised .divideByZero (Ptr.ofByte b) s

/-- The common form of the two-operand ALU instructions (R104, R108, R109, R116): phase V for `a`, then `b`; both
registers are read before anything is written (R103). -/
def aluTwo (op : BitVec W → BitVec W → AluOp W) (a b : Byte) (s : State M N W P S) : Answer M N W P S :=
  withReg a s fun i => withReg b s fun j => aluCommit i b 3 s (alu (op (s.reg i) (s.reg j)))

/-- ADD (R105). -/
def execAdd (a b : Byte) (s : State M N W P S) : Answer M N W P S := aluTwo .add a b s

/-- SUB (R106). Whether its byte decodes is the decoder's matter (`DECODE_SUB_DIV`). -/
def execSub (a b : Byte) (s : State M N W P S) : Answer M N W P S := aluTwo .sub a b s

/-- MUL (R107). -/
def execMul (a b : Byte) (s : State M N W P S) : Answer M N W P S := aluTwo .mul a b s

/-- DIV (R108). Whether its byte decodes is the decoder's matter (`DECODE_SUB_DIV`). -/
def execDiv (a b : Byte) (s : State M N W P S) : Answer M N W P S := aluTwo .div a b s

/-- MOD (R109); the divisor is the one fetched in this step (R119). -/
def execMod (a b : Byte) (s : State M N W P S) : Answer M N W P S := aluTwo .mod a b s

/-- CMP (R116). -/
def execCmp (a b : Byte) (s : State M N W P S) : Answer M N W P S := aluTwo .cmp a b s

/-- AND (R110). -/
def execAnd (a b : Byte) (s : State M N W P S) : Answer M N W P S := aluTwo .and a b s

/-- OR (R111). -/
def execOr (a b : Byte) (s : State M N W P S) : Answer M N W P S := aluTwo .or a b s

/-- XOR (R112). -/
def execXor (a b : Byte) (s : State M N W P S) : Answer M N W P S := aluTwo .xor a b s

/-- SHL (R114). -/
def execShl (a b : Byte) (s : State M N W P S) : Answer M N W P S := aluTwo .shl a b s

/-- SHR (R115). -/
def execShr (a b : Byte) (s : State M N W P S) : Answer M N W P S := aluTwo .shr a b s

/-- NOT (R113), of one operand; it divides by nothing, so the divisor index given to `aluCommit` plays no part. -/
def execNot (a : Byte) (s : State M N W P S) : Answer M N W P S :=
  withReg a s fun i => aluCommit i a 2 s (alu (.not (s.reg i)))

end Sys2Proof.Machine
end

