-- ==== Sys2Proof/Machine/Control.lean ====
section
/-! DEFINITION. CALL, RET, JMP, JEQ and JNE (spec 43_control_transfer.md). -/

namespace Sys2Proof.Machine

/-! The sizes of R9: `M` is `MEM_SIZE`, `N` `NUM_REGS`, `W` `REG_WIDTH`, `P` `PC_WIDTH` and `S` `SP_WIDTH`. -/
variable {M N W P S : Nat}

/-- CALL (R161): the target is read before the push, and the return address must be a byte (R166) before `sp` is
looked at (R187). -/
def execCall (a : Byte) (s : State M N W P S) : Answer M N W P S :=
  withReg a s fun i =>
    if s.pc.toNat + 2 > 255 then raised .returnAddress (BitVec.ofNat P (s.pc.toNat + 2)) s
    else
      match s.push (BitVec.ofNat 8 (s.pc.toNat + 2)) with
      | none => raised .stackOverflow (s.sp.setWidth P) s
      | some u => .next (u.setPc (s.reg i))

/-- RET (R162). -/
def execRet (s : State M N W P S) : Answer M N W P S :=
  match s.pop with
  | none => raised .stackUnderflow (s.sp.setWidth P) s
  | some (t, u) => .next (u.setPc t)

/-- JMP (R163). -/
def execJmp (a : Byte) (s : State M N W P S) : Answer M N W P S :=
  withReg a s fun i => .next (s.setPc (s.reg i))

/-- JEQ (R164): the register index is checked whether or not the branch is taken. -/
def execJeq (a : Byte) (s : State M N W P S) : Answer M N W P S :=
  withReg a s fun i => .next (if s.flags.e then s.setPc (s.reg i) else s.advance 2)

/-- JNE (R165). -/
def execJne (a : Byte) (s : State M N W P S) : Answer M N W P S :=
  withReg a s fun i => .next (if s.flags.e then s.advance 2 else s.setPc (s.reg i))

end Sys2Proof.Machine
end

