-- ==== Sys2Proof/Machine/LoadPrintHalt.lean ====
section
/-! DEFINITION. LDI, PRN and HLT (spec 40_control_unit.md section 3). -/

namespace Sys2Proof.Machine

/-! The sizes of R9: `M` is `MEM_SIZE`, `N` `NUM_REGS`, `W` `REG_WIDTH`, `P` `PC_WIDTH` and `S` `SP_WIDTH`. -/
variable {M N W P S : Nat}

/-- LDI (R89): the immediate is the whole byte, unchanged and unchecked (R65, R88). -/
def execLdi (a b : Byte) (s : State M N W P S) : Answer M N W P S :=
  withReg a s fun i => .next ((s.setReg i (b.setWidth W)).advance 3)

/-- PRN (R90, R91). -/
def execPrn (a : Byte) (s : State M N W P S) : Answer M N W P S :=
  withReg a s fun i => .next ((s.emit ((s.reg i).setWidth 8)).advance 2)

/-- HLT (R92): it halts, and `pc` is advanced past it. -/
def execHlt (s : State M N W P S) : Answer M N W P S := .next (s.halt.advance 1)

end Sys2Proof.Machine
end

