-- ==== Sys2Proof/Machine/StackInstr.lean ====
section
/-! DEFINITION. PUSH and POP (spec 42_stack.md). -/

namespace Sys2Proof.Machine

/-! The sizes of R9: `M` is `MEM_SIZE`, `N` `NUM_REGS`, `W` `REG_WIDTH`, `P` `PC_WIDTH` and `S` `SP_WIDTH`. -/
variable {M N W P S : Nat}

/-- PUSH (R145). -/
def execPush (a : Byte) (s : State M N W P S) : Answer M N W P S :=
  withReg a s fun i =>
    match s.push ((s.reg i).setWidth 8) with
    | none => raised .stackOverflow (s.sp.setWidth P) s
    | some u => .next (u.advance 2)

/-- POP (R146). -/
def execPop (a : Byte) (s : State M N W P S) : Answer M N W P S :=
  withReg a s fun i =>
    match s.pop with
    | none => raised .stackUnderflow (s.sp.setWidth P) s
    | some (v, u) => .next ((u.setReg i (v.setWidth W)).advance 2)

end Sys2Proof.Machine
end

