-- ==== Sys2Proof/Machine/Step.lean ====
section
/-! DEFINITION. One step of the Control Unit (spec R82), for any parameters and for this hardware's, and the placing of
an instruction where the next step fetches it. -/

namespace Sys2Proof.Machine

/-- One requested step, with the parameters `p` (R81, R82): `exec` is phases V, E and P of the decoded instruction. -/
def stepWith (p : Params) (s : State) : Host.Outcome State Fault Refusal := s.stepBy exec p

/-- One step of this hardware. -/
def step (s : State) : Host.Outcome State Fault Refusal := stepWith Params.thisHardware s

/-- `s` with an instruction of the opcode table placed at `pc`, where the next step fetches. It stands for the host's
load of a program (R214; notes/assumptions/7). -/
def State.withFetchWord (s : State) (nbits w : Nat) : State := s.placeBytes s.pc.toNat (tableBytes nbits w)

end Sys2Proof.Machine
end

