-- ==== Sys2Proof/Machine/Sized.lean ====
section
/-! DEFINITION. The machine as a function of the whole parameter table of rule R9: its state, its reset, the load of a
program and its step for any values of the parameters. The machine of this hardware's values is `State`, `State.reset`
and `step` (`Laws/Sized.lean`). -/

namespace Sys2Proof.Machine

/-- The parameter table of R9, one field a row (`Params` holds `OPCODE_MAP`, `DECODE_SUB_DIV` and `DEFAULT_PROGRAM`). The
sizes have R9's values for this hardware as their defaults. -/
structure MachineParams extends Params where
  /-- `MEM_SIZE` -/
  memSize : Nat := 256
  /-- `NUM_REGS` -/
  numRegs : Nat := 8
  /-- `REG_WIDTH` -/
  regWidth : Nat := 8
  /-- `PC_WIDTH` -/
  pcWidth : Nat := 9
  /-- `SP_WIDTH` -/
  spWidth : Nat := 9
  /-- `SP_RESET` -/
  spReset : Nat := 256

/-- The value column of R9. -/
def MachineParams.thisHardware : MachineParams := { toParams := Params.thisHardware }

/-- The state of the machine of a parameter table. -/
abbrev MachineParams.StateType (q : MachineParams) : Type :=
  State q.memSize q.numRegs q.regWidth q.pcWidth q.spWidth

/-- Reset (R36, R210). -/
def MachineParams.reset (q : MachineParams) : q.StateType := State.resetTo q.spReset

/-- Reset and the load of the supplied image, or of `DEFAULT_PROGRAM` (R214, R215). -/
def MachineParams.boot (q : MachineParams) (supplied : Option (List Byte)) : Option q.StateType :=
  q.reset.load (supplied.getD q.defaultProgram)

/-- Phases V, E and P of an instruction (R82) for any sizes: the meanings of `exec`. -/
def execAt {M N W P S : Nat} (i : Instr) (s : State M N W P S) : Answer M N W P S :=
  match i with
  | .hlt => execHlt s
  | .ret => execRet s
  | .push a => execPush a s
  | .pop a => execPop a s
  | .prn a => execPrn a s
  | .call a => execCall a s
  | .jmp a => execJmp a s
  | .jeq a => execJeq a s
  | .jne a => execJne a s
  | .not a => execNot a s
  | .ldi a b => execLdi a b s
  | .add a b => execAdd a b s
  | .sub a b => execSub a b s
  | .mul a b => execMul a b s
  | .div a b => execDiv a b s
  | .mod a b => execMod a b s
  | .cmp a b => execCmp a b s
  | .and a b => execAnd a b s
  | .or a b => execOr a b s
  | .xor a b => execXor a b s
  | .shl a b => execShl a b s
  | .shr a b => execShr a b s

/-- One requested step of the machine of a parameter table (R81, R82). -/
def MachineParams.step (q : MachineParams) (s : q.StateType) :
    Answer q.memSize q.numRegs q.regWidth q.pcWidth q.spWidth :=
  State.stepBy execAt q.toParams s

end Sys2Proof.Machine
end

