-- ==== Sys2Proof/Machine/HostPort.lean ====
section
/-! DEFINITION. The CORE's interface to the host at transaction level (spec R210, R214 to R216): the ports that show
the run state and the fault record, the program load, and the requests reset, load and step. The host reads every other
piece of state as it stands in `State` (R37). -/

namespace Sys2Proof.Machine

/-- The encoding of `status` (R29). -/
def Status.code : Status → BitVec 2
  | .running => 0
  | .halted => 1
  | .faulted => 2

/-- The code of a cause, the value of `fault.cause` (R30, R181). -/
def Cause.code : Cause → BitVec 3
  | .none => 0
  | .divideByZero => 1
  | .unknownOpcode => 2
  | .memoryBounds => 3
  | .stackOverflow => 4
  | .stackUnderflow => 5
  | .registerIndex => 6
  | .returnAddress => 7

/-- The out ports `status`, `fault_cause`, `fault_pc` and `fault_value` (R216). -/
structure Ports where
  status : BitVec 2
  faultCause : BitVec 3
  faultPc : Ptr
  faultValue : Ptr
  deriving DecidableEq, Repr

/-- What the out ports show in a state (R216). -/
def State.ports (s : State) : Ports := ⟨s.status.code, s.fault.cause.code, s.fault.pc, s.fault.value⟩

/-- The events of the port `out` between two states of a run: the values that joined the output channel (R91, R216). -/
def outEvents (before after : State) : List Byte := after.output.drop before.output.length

/-- The image the host loads: the supplied one, else `DEFAULT_PROGRAM` (R215). -/
def bootImage (p : Params) (supplied : Option (List Byte)) : List Byte := supplied.getD p.defaultProgram

/-- The CORE after reset and the load of an image, ready for its first step (R213, R214); an image of more than
`MEM_SIZE` = 256 bytes is the loader's error and starts nothing. -/
def loadImage (image : List Byte) : Option State := State.reset.load image

/-- Boot: reset, and the load of the supplied image or of `DEFAULT_PROGRAM`, which is loaded like any other (R215). -/
def boot (p : Params) (supplied : Option (List Byte)) : Option State := loadImage (bootImage p supplied)

/-- The CORE as the host holds it: its state, and whether a step has been requested since the last reset. The second
is the protocol of the load port, not state of the CORE (R35, R214; notes/assumptions/9). -/
structure Session where
  core : State
  stepped : Bool
  deriving DecidableEq, Repr

/-- The requests of R216. -/
inductive Request where
  | reset
  | load (addr data : Byte)
  | step
  deriving DecidableEq, Repr

/-- Serving one request: reset in any state (R210); a load only between reset and the first step (R214), one that comes
later changing nothing; a step (R81, R82). -/
def Session.serve (p : Params) (σ : Session) : Request → Host.Outcome Session Fault Refusal
  | .reset => .next ⟨State.reset, false⟩
  | .load addr data =>
    .next (if σ.stepped then σ else { σ with core := (σ.core.memWrite addr.toNat data).getD σ.core })
  | .step =>
    match stepWith p σ.core with
    | .next s => .next ⟨s, true⟩
    | .fault r => .fault r
    | .refused r => .refused r

/-- What the host must do at the end of a run (R191); all of it is outside the CORE. -/
inductive HostDuty where
  /-- HLT: nothing more -/
  | nothing
  /-- divide by zero: report the error, the process goes on -/
  | report
  /-- unknown opcode: report opcode and address, end the process with exit code 1 -/
  | reportAndExit
  /-- bounds fault: report it and choose to stop the machine or abort the process -/
  | reportAndChoose
  deriving DecidableEq, Repr

/-- The host's duty by how the run ended (R191); none while it goes on. -/
def State.hostDuty (s : State) : Option HostDuty :=
  match s.status with
  | .running => none
  | .halted | .faulted =>
    match s.fault.cause with
    | .none => some .nothing
    | .divideByZero => some .report
    | .unknownOpcode => some .reportAndExit
    | .memoryBounds | .stackOverflow | .stackUnderflow | .registerIndex | .returnAddress => some .reportAndChoose

end Sys2Proof.Machine
end

