-- ==== Sys2Proof/Safety.lean ====
section
/-! DEFINITION. What claims speak of: the invariant of the CORE, the fault a step raises by the spec's own order of
checks, and runs and their end. -/

namespace Sys2Proof.Machine

/-- What the fault record of each cause may hold (the last column of R181, and R186 for the addresses). -/
def FaultRecord.legal (f : FaultRecord) : Prop :=
  match f.cause with
  | .none => f.pc = 0 ∧ f.value = 0
  | .divideByZero => f.pc.toNat ≤ 253 ∧ f.value.toNat ≤ 7
  | .unknownOpcode => f.pc.toNat ≤ 255 ∧ f.value.toNat ≤ 255
  | .memoryBounds => 254 ≤ f.pc.toNat ∧ f.pc.toNat ≤ 256 ∧ f.value.toNat = 256
  | .stackOverflow => f.pc.toNat ≤ 254 ∧ f.value.toNat = 0
  | .stackUnderflow => f.pc.toNat ≤ 255 ∧ f.value.toNat = 256
  | .registerIndex => f.pc.toNat ≤ 254 ∧ 8 ≤ f.value.toNat ∧ f.value.toNat ≤ 255
  | .returnAddress => f.pc.toNat = 254 ∧ f.value.toNat = 256

/-- The invariant of the CORE. -/
structure State.Inv (s : State) : Prop where
  /-- `pc` is 0 to 256 (R23). -/
  pc_le : s.pc.toNat ≤ 256
  /-- `sp` is 0 to 256 (R26, R143). -/
  sp_le : s.sp.toNat ≤ 256
  /-- Memory keeps its canonical form, and so lists no cell that does not exist. -/
  mem_wf : Memory.wf s.mem = true
  /-- No two flags are set: none before the first CMP, one after it (R28). -/
  flags_exclusive :
    (s.flags.e && s.flags.l) = false ∧ (s.flags.e && s.flags.g) = false ∧ (s.flags.l && s.flags.g) = false
  /-- The fault record holds what R181 gives its cause. -/
  fault_legal : s.fault.legal
  /-- While the CORE runs no fault has been raised (R30). -/
  running_no_fault : s.status = .running → s.fault.cause = .none
  /-- `HALTED` is left by HLT or by a divide by zero (R93, R181). -/
  halted_cause : s.status = .halted → s.fault.cause = .none ∨ s.fault.cause = .divideByZero
  /-- `FAULTED` is left by any other fault (R93, R181). -/
  faulted_cause : s.status = .faulted → s.fault.cause ≠ .none ∧ s.fault.cause ≠ .divideByZero
  /-- The record of a raised fault holds the `pc` at which the CORE stopped (R184, R185). -/
  fault_pc : s.fault.cause ≠ .none → s.fault.pc = s.pc

/-- The byte operands that are register indices, by format (R88). -/
def checkedOperands (f : Format) (a b : Byte) : List Byte :=
  match f with
  | .n => []
  | .r | .ri => [a]
  | .rr => [a, b]

/-- The fault of phase E of an instruction whose operands have passed the earlier phases, with its value, in the order
its rule tests them (R181, R187). -/
def execFault (m : Mnemonic) (b : Byte) (s : State) : Option (Cause × Nat) :=
  match m with
  | .call =>
    if s.pc.toNat + 2 > 255 then some (.returnAddress, s.pc.toNat + 2)
    else if s.sp.toNat = 0 then some (.stackOverflow, s.sp.toNat)
    else none
  | .push => if s.sp.toNat = 0 then some (.stackOverflow, s.sp.toNat) else none
  | .pop | .ret => if s.sp.toNat = 256 then some (.stackUnderflow, s.sp.toNat) else none
  | .div | .mod => if s.regs[b.toNat]? = some 0 then some (.divideByZero, b.toNat) else none
  | .hlt | .prn | .jmp | .jeq | .jne | .not | .ldi | .add | .sub | .mul | .cmp | .and | .or | .xor | .shl | .shr => none

/-- The one fault a step from a `RUNNING` state raises, with its value: the first that R187's order meets. It is
written from R181, R186 and R187, apart from the meanings of the instructions. -/
def firstFault (p : Params) (s : State) : Option (Cause × Nat) :=
  if s.pc.toNat > 255 then some (.memoryBounds, s.pc.toNat)
  else
    let op := Memory.read s.mem s.pc.toNat
    match Mnemonic.all.find? fun m => p.decodes m && p.opcodeMap m == op with
    | none => some (.unknownOpcode, op.toNat)
    | some m =>
      if s.pc.toNat + m.width > 256 then some (.memoryBounds, 256)
      else
        let a := Memory.read s.mem (s.pc.toNat + 1)
        let b := Memory.read s.mem (s.pc.toNat + 2)
        match (checkedOperands m.format a b).find? fun v => decide (v.toNat > 7) with
        | some v => some (.registerIndex, v.toNat)
        | none => execFault m b s

/-- `k` steps with the parameters `p`. -/
def runWith (p : Params) : Nat → State → Host.Outcome State Fault Refusal
  | 0, s => .next s
  | k + 1, s =>
    match stepWith p s with
    | .next t => runWith p k t
    | .fault r => .fault r
    | .refused r => .refused r

/-- The run from `s` ends in `t` after `k` steps: `t` is the first state reached that is not `RUNNING` (R94). -/
def EndsIn (p : Params) (s : State) (k : Nat) (t : State) : Prop :=
  runWith p k s = .next t ∧ t.status ≠ .running ∧
    ∀ j u, j < k → runWith p j s = .next u → u.status = .running

/-- The run from `s` has no end (R93, R94): after every number of steps the CORE is still `RUNNING`. -/
def NeverEnds (p : Params) (s : State) : Prop :=
  ∀ k t, runWith p k s = .next t → t.status = .running

/-- Value `n` of the output of the run from `s`, counted from 0, is `v`: after some number of steps it stands in the
output channel. -/
def OutputAt (p : Params) (s : State) (n : Nat) (v : Byte) : Prop :=
  ∃ k t, runWith p k s = .next t ∧ t.output[n]? = some v

/-- What is observed of a whole run (R94). -/
inductive Observation where
  /-- A finished run: R94's tuple of `status`, fault record, output and final registers, flags, `pc`, `sp` and memory
  is all of the end state. -/
  | finished (t : State)
  /-- A run without an end: its output sequence, value by value. DEDUCED: an index the run never writes, because it
  prints no more, holds nothing (notes/assumptions/14). -/
  | endless (out : Nat → Option Byte)

/-- The observation of the run from `s` (R94); for a program `s` is the state after reset and its load (R214). -/
def Observes (p : Params) (s : State) : Observation → Prop
  | .finished t => ∃ k, EndsIn p s k t
  | .endless out => NeverEnds p s ∧ ∀ n v, out n = some v ↔ OutputAt p s n v

/-- An operand byte that names a register, with the registers renamed; any other byte is left alone. -/
def renameOperand (π : Equiv.Perm (Fin 8)) (a : Byte) : Byte :=
  if h : a.toNat < 8 then BitVec.ofNat 8 (π ⟨a.toNat, h⟩).val else a

/-- An instruction with the registers its operands name renamed (R20); the immediate of LDI names none. -/
def renameInstr (π : Equiv.Perm (Fin 8)) : Instr → Instr
  | .hlt => .hlt
  | .ret => .ret
  | .push a => .push (renameOperand π a)
  | .pop a => .pop (renameOperand π a)
  | .prn a => .prn (renameOperand π a)
  | .call a => .call (renameOperand π a)
  | .jmp a => .jmp (renameOperand π a)
  | .jeq a => .jeq (renameOperand π a)
  | .jne a => .jne (renameOperand π a)
  | .not a => .not (renameOperand π a)
  | .ldi a b => .ldi (renameOperand π a) b
  | .add a b => .add (renameOperand π a) (renameOperand π b)
  | .sub a b => .sub (renameOperand π a) (renameOperand π b)
  | .mul a b => .mul (renameOperand π a) (renameOperand π b)
  | .div a b => .div (renameOperand π a) (renameOperand π b)
  | .mod a b => .mod (renameOperand π a) (renameOperand π b)
  | .cmp a b => .cmp (renameOperand π a) (renameOperand π b)
  | .and a b => .and (renameOperand π a) (renameOperand π b)
  | .or a b => .or (renameOperand π a) (renameOperand π b)
  | .xor a b => .xor (renameOperand π a) (renameOperand π b)
  | .shl a b => .shl (renameOperand π a) (renameOperand π b)
  | .shr a b => .shr (renameOperand π a) (renameOperand π b)

/-- A state with the registers renamed: register `π r` holds what `r` held. -/
def State.renameRegs (π : Equiv.Perm (Fin 8)) (s : State) : State :=
  { s with regs := Vector.ofFn fun r => s.regs[π.symm r] }

end Sys2Proof.Machine
end

