-- ==== Sys2Proof/Certificates/Slice0/Obligations.lean ====
section
/-! DEFINITION. The statements for the provers. Results are written with naturals (spec R10) over the fields of the
state, so that a statement and a meaning are two readings of one rule. Where a next state is given as
`⟨s with …⟩`, every field not named is unchanged: that is the instruction's frame. `s.pc + w` is the exact sum wherever
the instruction lies in memory; at a `pc` that no fetch succeeds at it is the sum modulo 512, the model's choice (log
entry 6). -/

open Sys2Proof Sys2Proof.Machine

/-! ### Encoding -/

/-- R60, R62, R66: decoding the encoding of an instruction gives it back, with every operand at every byte and
whatever follows, for every `OPCODE_MAP` with distinct bytes. -/
def Obligations.EncodeThenDecode : Prop :=
  ∀ p : Params, p.Distinct → ∀ (i : Instr) (rest : List Byte), p.decodes i.mnemonic = true →
    decode p (encode p i ++ rest) = .ok (i, rest)

/-- R60, R66, R68: bytes that decode are the encoding of what they decode to, and its row takes part in decoding. -/
def Obligations.DecodeThenEncode : Prop :=
  ∀ (p : Params) (bytes rest : List Byte) (i : Instr), decode p bytes = .ok (i, rest) →
    bytes = encode p i ++ rest ∧ p.decodes i.mnemonic = true

/-- R69: the opcode byte alone determines the instruction's row and its length, the width column of R62; an unknown
opcode is rejected whatever follows it, even nothing. -/
def Obligations.WidthFollowsOpcode : Prop :=
  ∀ (p : Params) (op : Byte) (byteAt : Nat → Option Byte), byteAt 0 = some op →
    (decodeOpcode p op = none → decodeFrom p byteAt = .error (.unknownOpcode op)) ∧
    ∀ (m : Mnemonic) (i : Instr), decodeOpcode p op = some m → decodeFrom p byteAt = .ok i →
      i.mnemonic = m ∧
      i.width =
        (if m ∈ [.hlt, .ret] then 1
         else if m ∈ [.push, .pop, .prn, .call, .jmp, .jeq, .jne, .not] then 2
         else 3)

/-- R87: the fetch of an instruction reads its `width` bytes, which are its encoding, and no byte beyond them. -/
def Obligations.FetchReadsOnlyTheInstruction : Prop :=
  ∀ (p : Params) (f g : Nat → Option Byte) (i : Instr), decodeFrom p f = .ok i →
    (∀ k, k < i.width → f k = (encode p i)[k]? ∧ (f k).isSome = true) ∧
    ((∀ k, k < i.width → g k = f k) → decodeFrom p g = .ok i)

/-- R67 for the default `OPCODE_MAP`, whose byte values the spec takes from general knowledge (log entry 1): the twenty
bytes that decode, and the twenty-two with `DECODE_SUB_DIV`. -/
def Obligations.DefaultMapDecodedBytes : Prop :=
  ∀ (program : List Byte) (op : Byte),
    ((decodeOpcode ⟨defaultOpcodeMap, false, program⟩ op).isSome = true ↔
      op.toNat ∈ [0x01, 0x11, 0x45, 0x46, 0x47, 0x50, 0x54, 0x55, 0x56, 0x69, 0x82, 0xA0, 0xA2, 0xA4, 0xA7, 0xA8,
        0xAA, 0xAB, 0xAC, 0xAD]) ∧
    ((decodeOpcode ⟨defaultOpcodeMap, true, program⟩ op).isSome = true ↔
      op.toNat ∈ [0x01, 0x11, 0x45, 0x46, 0x47, 0x50, 0x54, 0x55, 0x56, 0x69, 0x82, 0xA0, 0xA1, 0xA2, 0xA3, 0xA4,
        0xA7, 0xA8, 0xAA, 0xAB, 0xAC, 0xAD])

/-- Words written out from R62 and spec/95_test_vectors.md decode to the instructions they stand for, one of each
family (default map: log entry 1; this hardware's parameters). -/
def Obligations.SpecWordsDecode : Prop :=
  decode Params.thisHardware [0b10000010, 0x00, 0x08] = .ok (.ldi 0 8, []) ∧
  decode Params.thisHardware [0b01000111, 0x05, 0x01] = .ok (.prn 5, [0x01]) ∧
  decode Params.thisHardware [0b00000001] = .ok (.hlt, []) ∧
  decode Params.thisHardware [0b10100000, 0x00, 0x01] = .ok (.add 0 1, []) ∧
  decode Params.thisHardware [0b01101001, 0x04] = .ok (.not 4, []) ∧
  decode Params.thisHardware [0b01000101, 0x03] = .ok (.push 3, []) ∧
  decode Params.thisHardware [0b01010000, 0x01] = .ok (.call 1, []) ∧
  decode Params.thisHardware [0b00010001, 0x02] = .ok (.ret, [0x02]) ∧
  decode Params.thisHardware [0b10100001, 0x00, 0x01] = .error (.unknownOpcode 0xA1)

/-! ### The step -/

/-- R82: when the encoding of an instruction lies at `pc` of a `RUNNING` CORE, one step is the execution of that
instruction, phases V, E and P; the step of this hardware is the step with its parameters. -/
def Obligations.StepRunsEncodedInstruction : Prop :=
  (∀ p : Params, p.Distinct → ∀ (i : Instr) (s : State), p.decodes i.mnemonic = true → s.status = .running →
    (∀ (k : Nat) (hk : k < (encode p i).length), s.memRead (s.pc.toNat + k) = some (encode p i)[k]) →
    stepWith p s = exec i s) ∧
  (∀ s : State, step s = stepWith Params.thisHardware s)

/-- R81: a step requested while `status` is not `RUNNING` does nothing. -/
def Obligations.StepOfStoppedCoreDoesNothing : Prop :=
  ∀ (p : Params) (s : State), s.status ≠ .running → stepWith p s = .next s

/-- R182: a byte at `pc` that no entry of `OPCODE_MAP` matches raises `UNKNOWN_OPCODE` with the byte and the `pc`,
changes nothing else, no later step does anything, and ending the process is left to the host. -/
def Obligations.UnknownOpcodeFault : Prop :=
  ∀ (p : Params) (s : State) (op : Byte), s.status = .running → s.memRead s.pc.toNat = some op →
    (∀ m : Mnemonic, p.decodes m = true → p.opcodeMap m ≠ op) →
    ∃ t : State,
      stepWith p s = .next t ∧
      t = { s with status := .faulted, fault := ⟨.unknownOpcode, s.pc, BitVec.ofNat 9 op.toNat⟩ } ∧
      t.hostDuty = some .reportAndExit ∧
      stepWith p t = .next t

/-- R186, first bullet, and R82 phases F and O: the fetch of an opcode at 256, or of an operand at 256, raises
`MEMORY_BOUNDS` with value 256 and changes nothing else. -/
def Obligations.FetchBoundsFault : Prop :=
  ∀ (p : Params) (s : State), s.status = .running →
    (s.pc.toNat = 256 →
      stepWith p s = .next { s with status := .faulted, fault := ⟨.memoryBounds, s.pc, 256⟩ }) ∧
    ∀ (op : Byte) (m : Mnemonic), s.memRead s.pc.toNat = some op → decodeOpcode p op = some m →
      s.pc.toNat + m.width > 256 →
      stepWith p s = .next { s with status := .faulted, fault := ⟨.memoryBounds, s.pc, 256⟩ }

/-- R92, R93, R184, R185, R187: a step from a `RUNNING` state raises the first fault that R187's order meets and no other.
Raising it writes `status` and the fault record as R184 says and changes nothing else. A step that meets none leaves
the fault record alone and the CORE running, unless it is HLT. -/
def Obligations.FaultsFollowSpecOrder : Prop :=
  ∀ p : Params, p.Distinct → ∀ s : State, s.status = .running → s.pc.toNat ≤ 256 → s.sp.toNat ≤ 256 →
    (∀ (c : Cause) (v : Nat), firstFault p s = some (c, v) →
      stepWith p s = .next { s with
        status := if c = .divideByZero then .halted else .faulted
        fault := ⟨c, s.pc, BitVec.ofNat 9 v⟩ }) ∧
    (firstFault p s = none →
      ∃ t : State, stepWith p s = .next t ∧ t.fault = s.fault ∧
        t.status = if s.fetch p = .ok .hlt then .halted else .running)

/-- R82, R184: every instruction and every step, in every state and with every parameters, answers a next state: the
model never stops. -/
def Obligations.StepAlwaysAnswersNext : Prop :=
  (∀ (i : Instr) (s : State), ∃ t : State, exec i s = .next t) ∧
  (∀ (p : Params) (s : State), ∃ t : State, stepWith p s = .next t)

/-- R23, R26, R28, R30, R143, R181: every step keeps the invariant of the CORE, from every state that has it. -/
def Obligations.StepKeepsInvariant : Prop :=
  ∀ (p : Params) (s t : State), s.Inv → stepWith p s = .next t → t.Inv

/-- The invariant holds after reset. -/
def Obligations.InvariantAtReset : Prop :=
  State.reset.Inv

/-- R24, R25, R84, R85: where a step that completes without a fault leaves `pc`: at the value that CALL, RET, JMP or a
taken JEQ or JNE assigns, else past the instruction, the sum exact and at most 256. -/
def Obligations.PcAfterCompletedStep : Prop :=
  ∀ (p : Params) (i : Instr) (s t : State), s.Inv → s.status = .running → s.fetch p = .ok i →
    stepWith p s = .next t → t.fault.cause = .none →
    t.pc.toNat ≤ 256 ∧
    match i with
    | .call a | .jmp a => s.regs[a.toNat]?.map BitVec.toNat = some t.pc.toNat
    | .ret => (s.memRead s.sp.toNat).map BitVec.toNat = some t.pc.toNat
    | .jeq a =>
      if s.flags.e = true then s.regs[a.toNat]?.map BitVec.toNat = some t.pc.toNat
      else t.pc.toNat = s.pc.toNat + 2
    | .jne a =>
      if s.flags.e = false then s.regs[a.toNat]?.map BitVec.toNat = some t.pc.toNat
      else t.pc.toNat = s.pc.toNat + 2
    | .hlt => t.pc.toNat = s.pc.toNat + 1
    | .push _ | .pop _ | .prn _ | .not _ => t.pc.toNat = s.pc.toNat + 2
    | .ldi _ _ | .add _ _ | .sub _ _ | .mul _ _ | .div _ _ | .mod _ _ | .cmp _ _ | .and _ _ | .or _ _ | .xor _ _
    | .shl _ _ | .shr _ _ => t.pc.toNat = s.pc.toNat + 3

/-- R67, R106, R108, D2: with `DECODE_SUB_DIV` false the SUB and DIV bytes raise `UNKNOWN_OPCODE`; with it true a step
runs them. -/
def Obligations.SubDivFollowParameter : Prop :=
  ∀ p : Params, p.Distinct → ∀ (s : State) (a b : Byte), s.status = .running →
    (p.decodeSubDiv = false → ∀ m ∈ [Mnemonic.sub, Mnemonic.div], s.memRead s.pc.toNat = some (p.opcodeMap m) →
      stepWith p s = .next { s with
        status := .faulted
        fault := ⟨.unknownOpcode, s.pc, BitVec.ofNat 9 (p.opcodeMap m).toNat⟩ }) ∧
    (p.decodeSubDiv = true → s.memRead (s.pc.toNat + 1) = some a → s.memRead (s.pc.toNat + 2) = some b →
      (s.memRead s.pc.toNat = some (p.opcodeMap .sub) → stepWith p s = exec (.sub a b) s) ∧
      (s.memRead s.pc.toNat = some (p.opcodeMap .div) → stepWith p s = exec (.div a b) s))

/-! ### Phase V -/

/-- R88: a register operand above 7 raises `REGISTER_INDEX` with the operand, `a` before `b`, in every instruction
that has one and in every state; the immediate of LDI is not checked. -/
def Obligations.RegisterIndexFault : Prop :=
  ∀ (s : State) (a b : Byte),
    (a.toNat > 7 →
      (∀ mk ∈ [Instr.push, Instr.pop, Instr.prn, Instr.call, Instr.jmp, Instr.jeq, Instr.jne, Instr.not],
        exec (mk a) s =
          .next { s with status := .faulted, fault := ⟨.registerIndex, s.pc, BitVec.ofNat 9 a.toNat⟩ }) ∧
      (∀ mk ∈ [Instr.ldi, Instr.add, Instr.sub, Instr.mul, Instr.div, Instr.mod, Instr.cmp, Instr.and, Instr.or,
          Instr.xor, Instr.shl, Instr.shr],
        exec (mk a b) s =
          .next { s with status := .faulted, fault := ⟨.registerIndex, s.pc, BitVec.ofNat 9 a.toNat⟩ })) ∧
    (a.toNat ≤ 7 → b.toNat > 7 →
      (∀ mk ∈ [Instr.add, Instr.sub, Instr.mul, Instr.div, Instr.mod, Instr.cmp, Instr.and, Instr.or, Instr.xor,
          Instr.shl, Instr.shr],
        exec (mk a b) s =
          .next { s with status := .faulted, fault := ⟨.registerIndex, s.pc, BitVec.ofNat 9 b.toNat⟩ }) ∧
      ∃ t : State, exec (.ldi a b) s = .next t ∧ t.status = s.status ∧ t.fault = s.fault)

/-! ### LDI, PRN, HLT -/

/-- R65, R89: LDI writes the immediate, unchanged, and nothing else but `pc`. -/
def Obligations.LdiResult : Prop :=
  ∀ (a b : Byte) (s : State) (ha : a.toNat < 8),
    exec (.ldi a b) s = .next { s with regs := s.regs.set a.toNat b ha, pc := s.pc + 3 }

/-- R90, R91: PRN appends the register's value to the output and changes nothing else but `pc`. -/
def Obligations.PrnResult : Prop :=
  ∀ (a : Byte) (s : State) (ha : a.toNat < 8),
    exec (.prn a) s = .next { s with output := s.output ++ [s.regs[a.toNat]], pc := s.pc + 2 }

/-- R92: HLT halts and leaves `pc` past it; no fault is recorded. -/
def Obligations.HltResult : Prop :=
  ∀ s : State, exec .hlt s = .next { s with status := .halted, pc := s.pc + 1 }

/-! ### ALU -/

/-- R101: the ALU's function, row by row, on all operand values. -/
def Obligations.AluTable : Prop :=
  ∀ va vb : Byte,
    alu (.add va vb) = .result (BitVec.ofNat 8 ((va.toNat + vb.toNat) % 256)) ∧
    alu (.sub va vb) = .result (BitVec.ofNat 8
      (if vb.toNat ≤ va.toNat then va.toNat - vb.toNat else va.toNat + 256 - vb.toNat)) ∧
    alu (.mul va vb) = .result (BitVec.ofNat 8 ((va.toNat * vb.toNat) % 256)) ∧
    alu (.div va vb) =
      (if vb.toNat = 0 then .divideByZero else .result (BitVec.ofNat 8 (va.toNat / vb.toNat))) ∧
    alu (.mod va vb) =
      (if vb.toNat = 0 then .divideByZero else .result (BitVec.ofNat 8 (va.toNat % vb.toNat))) ∧
    alu (.and va vb) = .result (BitVec.ofNat 8 (va.toNat &&& vb.toNat)) ∧
    alu (.or va vb) = .result (BitVec.ofNat 8 (va.toNat ||| vb.toNat)) ∧
    alu (.xor va vb) = .result (BitVec.ofNat 8 (va.toNat ^^^ vb.toNat)) ∧
    alu (.not va) = .result (BitVec.ofNat 8 (255 - va.toNat)) ∧
    alu (.shl va vb) = .result (BitVec.ofNat 8 ((va.toNat * 2 ^ vb.toNat) % 256)) ∧
    alu (.shr va vb) = .result (BitVec.ofNat 8 (va.toNat / 2 ^ vb.toNat)) ∧
    alu (.cmp va vb) =
      .flags ⟨decide (va.toNat = vb.toNat), decide (va.toNat < vb.toNat), decide (va.toNat > vb.toNat)⟩

/-- R104 to R107: ADD, SUB and MUL write the result modulo 256 to `x[a]`, from the values both registers had, and
change nothing else but `pc`. -/
def Obligations.AddSubMulResult : Prop :=
  ∀ (a b : Byte) (s : State) (ha : a.toNat < 8) (hb : b.toNat < 8),
    exec (.add a b) s = .next { s with
      regs := s.regs.set a.toNat (BitVec.ofNat 8 ((s.regs[a.toNat].toNat + s.regs[b.toNat].toNat) % 256)) ha
      pc := s.pc + 3 } ∧
    exec (.sub a b) s = .next { s with
      regs := s.regs.set a.toNat (BitVec.ofNat 8
        (if s.regs[b.toNat].toNat ≤ s.regs[a.toNat].toNat then s.regs[a.toNat].toNat - s.regs[b.toNat].toNat
         else s.regs[a.toNat].toNat + 256 - s.regs[b.toNat].toNat)) ha
      pc := s.pc + 3 } ∧
    exec (.mul a b) s = .next { s with
      regs := s.regs.set a.toNat (BitVec.ofNat 8 ((s.regs[a.toNat].toNat * s.regs[b.toNat].toNat) % 256)) ha
      pc := s.pc + 3 }

/-- R108, R109: with a divisor that is not 0, DIV writes the quotient rounded down and MOD the remainder to `x[a]`, and
they change nothing else but `pc`. -/
def Obligations.DivModResult : Prop :=
  ∀ (a b : Byte) (s : State) (ha : a.toNat < 8) (hb : b.toNat < 8), s.regs[b.toNat].toNat ≠ 0 →
    exec (.div a b) s = .next { s with
      regs := s.regs.set a.toNat (BitVec.ofNat 8 (s.regs[a.toNat].toNat / s.regs[b.toNat].toNat)) ha
      pc := s.pc + 3 } ∧
    exec (.mod a b) s = .next { s with
      regs := s.regs.set a.toNat (BitVec.ofNat 8 (s.regs[a.toNat].toNat % s.regs[b.toNat].toNat)) ha
      pc := s.pc + 3 }

/-- R183: MOD and DIV by a register that holds 0 raise `DIVIDE_BY_ZERO` with the register's index and enter `HALTED`;
nothing else changes, nothing happens afterwards, and the error is the host's to report. -/
def Obligations.DivideByZeroFault : Prop :=
  ∀ (a b : Byte) (s : State) (_ : a.toNat < 8) (hb : b.toNat < 8), s.regs[b.toNat] = 0 →
    ∀ mk ∈ [Instr.div, Instr.mod], ∃ t : State,
      exec (mk a b) s = .next t ∧
      t = { s with status := .halted, fault := ⟨.divideByZero, s.pc, BitVec.ofNat 9 b.toNat⟩ } ∧
      t.hostDuty = some .report ∧
      ∀ p : Params, stepWith p t = .next t

/-- R104, R110 to R113: AND, OR and XOR of the two registers, and NOT of one, go to `x[a]`; nothing else changes but
`pc`. -/
def Obligations.LogicResult : Prop :=
  ∀ (a b : Byte) (s : State) (ha : a.toNat < 8) (hb : b.toNat < 8),
    exec (.and a b) s = .next { s with
      regs := s.regs.set a.toNat (BitVec.ofNat 8 (s.regs[a.toNat].toNat &&& s.regs[b.toNat].toNat)) ha
      pc := s.pc + 3 } ∧
    exec (.or a b) s = .next { s with
      regs := s.regs.set a.toNat (BitVec.ofNat 8 (s.regs[a.toNat].toNat ||| s.regs[b.toNat].toNat)) ha
      pc := s.pc + 3 } ∧
    exec (.xor a b) s = .next { s with
      regs := s.regs.set a.toNat (BitVec.ofNat 8 (s.regs[a.toNat].toNat ^^^ s.regs[b.toNat].toNat)) ha
      pc := s.pc + 3 } ∧
    exec (.not a) s = .next { s with
      regs := s.regs.set a.toNat (BitVec.ofNat 8 (255 - s.regs[a.toNat].toNat)) ha
      pc := s.pc + 2 }

/-- R104, R114, R115: SHL and SHR by the whole value of `x[b]`, so that a count of 8 or more gives 0; nothing else
changes but `pc`. -/
def Obligations.ShiftResult : Prop :=
  ∀ (a b : Byte) (s : State) (ha : a.toNat < 8) (hb : b.toNat < 8),
    exec (.shl a b) s = .next { s with
      regs := s.regs.set a.toNat (BitVec.ofNat 8 ((s.regs[a.toNat].toNat * 2 ^ s.regs[b.toNat].toNat) % 256)) ha
      pc := s.pc + 3 } ∧
    exec (.shr a b) s = .next { s with
      regs := s.regs.set a.toNat (BitVec.ofNat 8 (s.regs[a.toNat].toNat / 2 ^ s.regs[b.toNat].toNat)) ha
      pc := s.pc + 3 }

/-- R116: CMP sets the flags by the unsigned order of the two registers and changes nothing else but `pc`. -/
def Obligations.CmpResult : Prop :=
  ∀ (a b : Byte) (s : State) (ha : a.toNat < 8) (hb : b.toNat < 8),
    exec (.cmp a b) s = .next { s with
      flags := ⟨decide (s.regs[a.toNat].toNat = s.regs[b.toNat].toNat),
        decide (s.regs[a.toNat].toNat < s.regs[b.toNat].toNat),
        decide (s.regs[a.toNat].toNat > s.regs[b.toNat].toNat)⟩
      pc := s.pc + 3 }

/-- R103: the two-operand instructions on one register twice read its old value. -/
def Obligations.SameRegisterTwice : Prop :=
  ∀ (a : Byte) (s : State) (ha : a.toNat < 8),
    exec (.add a a) s = .next { s with
      regs := s.regs.set a.toNat (BitVec.ofNat 8 ((2 * s.regs[a.toNat].toNat) % 256)) ha
      pc := s.pc + 3 } ∧
    exec (.sub a a) s = .next { s with regs := s.regs.set a.toNat 0 ha, pc := s.pc + 3 } ∧
    exec (.xor a a) s = .next { s with regs := s.regs.set a.toNat 0 ha, pc := s.pc + 3 } ∧
    exec (.and a a) s = .next { s with pc := s.pc + 3 } ∧
    exec (.or a a) s = .next { s with pc := s.pc + 3 } ∧
    exec (.cmp a a) s = .next { s with flags := ⟨true, false, false⟩, pc := s.pc + 3 } ∧
    (s.regs[a.toNat] ≠ 0 →
      exec (.mod a a) s = .next { s with regs := s.regs.set a.toNat 0 ha, pc := s.pc + 3 }) ∧
    (s.regs[a.toNat] = 0 →
      exec (.mod a a) s =
        .next { s with status := .halted, fault := ⟨.divideByZero, s.pc, BitVec.ofNat 9 a.toNat⟩ })

/-! ### Flags, registers, memory, stack pointer, output: the rules over all instructions -/

/-- R28, R102: the flags are all 0 at reset; only CMP writes them; exactly one is set after it; only JEQ and JNE depend
on them, and on `fl.E` alone, which decides whether they branch. -/
def Obligations.FlagRules : Prop :=
  State.reset.flags = ⟨false, false, false⟩ ∧
  (∀ (p : Params) (s t : State), stepWith p s = .next t → t.flags ≠ s.flags →
    ∃ a b : Byte, s.fetch p = .ok (.cmp a b)) ∧
  (∀ (i : Instr) (s t : State), (∀ a b : Byte, i ≠ .cmp a b) → exec i s = .next t →
    t.flags = s.flags ∧
    (∀ l g : Bool, exec i { s with flags := ⟨s.flags.e, l, g⟩ } = .next { t with flags := ⟨s.flags.e, l, g⟩ }) ∧
    ((∀ a : Byte, i ≠ .jeq a ∧ i ≠ .jne a) →
      ∀ f : Flags, exec i { s with flags := f } = .next { t with flags := f })) ∧
  (∀ (a b : Byte) (s : State) (f : Flags), a.toNat < 8 → b.toNat < 8 →
    exec (.cmp a b) { s with flags := f } = exec (.cmp a b) s ∧
    ∃ t : State, exec (.cmp a b) s = .next t ∧
      t.flags ∈ [(⟨true, false, false⟩ : Flags), ⟨false, true, false⟩, ⟨false, false, true⟩]) ∧
  (∀ (a : Byte) (s : State) (ha : a.toNat < 8), s.pc.toNat + 2 ≤ 256 →
    ∃ t u : State, exec (.jeq a) s = .next t ∧ exec (.jne a) s = .next u ∧
      t.pc.toNat = (if s.flags.e = true then s.regs[a.toNat].toNat else s.pc.toNat + 2) ∧
      u.pc.toNat = (if s.flags.e = true then s.pc.toNat + 2 else s.regs[a.toNat].toNat))

/-- R22: a register that no operand names is neither read nor written; of the named ones only `x[a]` is written, and by
the instructions the table says; LDI and POP do not read it. -/
def Obligations.RegisterUse : Prop :=
  (∀ (i : Instr) (s t : State) (r : Fin 8) (v : Byte), (∀ a ∈ i.regOperands, a.toNat ≠ r.val) →
    exec i s = .next t →
    exec i { s with regs := s.regs.set r v } = .next { t with regs := t.regs.set r v }) ∧
  (∀ (i : Instr) (s t : State) (r : Fin 8), i.operands.head? ≠ some (BitVec.ofNat 8 r.val) → exec i s = .next t →
    t.regs[r] = s.regs[r]) ∧
  (∀ (a b : Byte) (s t : State),
    ∀ i ∈ [Instr.prn a, Instr.cmp a b, Instr.push a, Instr.call a, Instr.jmp a, Instr.jeq a, Instr.jne a, Instr.ret,
      Instr.hlt], exec i s = .next t → t.regs = s.regs) ∧
  (∀ (a b v : Byte) (s : State) (ha : a.toNat < 8),
    exec (.ldi a b) { s with regs := s.regs.set a.toNat v ha } = exec (.ldi a b) s ∧
    (s.sp.toNat < 256 → exec (.pop a) { s with regs := s.regs.set a.toNat v ha } = exec (.pop a) s))

/-- R20: no register has a special role. Renaming the registers, in an instruction's operands and in the state alike,
renames the result of an instruction that completes without a fault. -/
def Obligations.RegistersAreAlike : Prop :=
  ∀ (π : Equiv.Perm (Fin 8)) (i : Instr) (s t : State), s.fault.cause = .none → exec i s = .next t →
    t.fault.cause = .none → exec (renameInstr π i) (s.renameRegs π) = .next (t.renameRegs π)

/-- R42, R27: every byte of memory but the one at `sp - 1` that PUSH or CALL writes, and `sp` but in PUSH, CALL, POP
and RET, is unchanged by every instruction. -/
def Obligations.MemoryAndSpFrame : Prop :=
  ∀ (i : Instr) (s t : State), exec i s = .next t →
    (∀ k : Nat, ((∀ a : Byte, i ≠ .push a ∧ i ≠ .call a) ∨ k + 1 ≠ s.sp.toNat) → t.memRead k = s.memRead k) ∧
    ((∀ a : Byte, i ≠ .push a ∧ i ≠ .call a ∧ i ≠ .pop a ∧ i ≠ .ret) → t.sp = s.sp)

/-- R34, R91: the output channel is empty at reset; a step appends nothing, or, for a PRN, the one value its register
holds; no step depends on what the channel holds. -/
def Obligations.OutputChannel : Prop :=
  State.reset.output = [] ∧
  ∀ (p : Params) (s t : State), stepWith p s = .next t →
    (t.output = s.output ∨
      ∃ (a : Byte) (ha : a.toNat < 8), s.fetch p = .ok (.prn a) ∧ t.output = s.output ++ [s.regs[a.toNat]]) ∧
    (∀ (a : Byte) (ha : a.toNat < 8), s.status = .running → s.fetch p = .ok (.prn a) →
      t.output = s.output ++ [s.regs[a.toNat]]) ∧
    (∀ o : List Byte, stepWith p { s with output := o } = .next { t with output := o ++ outEvents s t })

/-! ### Stack and control transfer -/

/-- R141, R145: PUSH with room on the stack decrements `sp`, writes the register's value there, and changes no other
byte and nothing else but `pc`. -/
def Obligations.PushResult : Prop :=
  ∀ (a : Byte) (s : State) (ha : a.toNat < 8), 0 < s.sp.toNat → s.sp.toNat ≤ 256 → Memory.wf s.mem = true →
    ∃ t : State, exec (.push a) s = .next t ∧
      t = { s with sp := t.sp, mem := t.mem, pc := s.pc + 2 } ∧
      t.sp.toNat = s.sp.toNat - 1 ∧
      Memory.wf t.mem = true ∧
      ∀ k : Nat, t.memRead k = if k = s.sp.toNat - 1 then some s.regs[a.toNat] else s.memRead k

/-- R142, R146: POP of a stack that is not empty writes the byte at `sp` to the register, increments `sp`, and changes
nothing else but `pc`: the byte stays in memory. -/
def Obligations.PopResult : Prop :=
  ∀ (a : Byte) (s : State) (ha : a.toNat < 8), s.sp.toNat < 256 →
    ∃ v : Byte, s.memRead s.sp.toNat = some v ∧ (s.sp + 1).toNat = s.sp.toNat + 1 ∧
      exec (.pop a) s = .next { s with regs := s.regs.set a.toNat v ha, sp := s.sp + 1, pc := s.pc + 2 }

/-- R53, R144: a byte that PUSH wrote is the instruction that a later fetch of its address executes, with no fence and no
delay; here HLT or RET, whose encoding is one byte. -/
def Obligations.PushedByteIsExecuted : Prop :=
  ∀ p : Params, p.Distinct → ∀ (i : Instr) (a : Byte) (s : State) (ha : a.toNat < 8), i = .hlt ∨ i = .ret →
    s.regs[a.toNat] = p.opcodeMap i.mnemonic → 0 < s.sp.toNat → s.sp.toNat ≤ 256 → Memory.wf s.mem = true →
    ∃ t : State, exec (.push a) s = .next t ∧
      ∀ u : State, u.status = .running → u.mem = t.mem → u.pc = t.sp → stepWith p u = exec i u

/-- R141, R142, R186: a push at `sp` = 0 raises `STACK_OVERFLOW`, a pop at `sp` = 256 `STACK_UNDERFLOW`, with `sp` as
the value, and nothing else changes. -/
def Obligations.StackFaults : Prop :=
  ∀ (a : Byte) (s : State), a.toNat < 8 →
    (s.sp = 0 →
      exec (.push a) s = .next { s with status := .faulted, fault := ⟨.stackOverflow, s.pc, 0⟩ } ∧
      (s.pc.toNat + 2 ≤ 255 →
        exec (.call a) s = .next { s with status := .faulted, fault := ⟨.stackOverflow, s.pc, 0⟩ })) ∧
    (s.sp = 256 →
      exec (.pop a) s = .next { s with status := .faulted, fault := ⟨.stackUnderflow, s.pc, 256⟩ } ∧
      exec .ret s = .next { s with status := .faulted, fault := ⟨.stackUnderflow, s.pc, 256⟩ })

/-- R147: a POP that finds `sp` and memory as a PUSH left them brings the pushed value and restores `sp`. -/
def Obligations.PushThenPop : Prop :=
  ∀ (a b : Byte) (s : State) (ha : a.toNat < 8) (hb : b.toNat < 8), 0 < s.sp.toNat → s.sp.toNat ≤ 256 →
    Memory.wf s.mem = true →
    ∃ t : State, exec (.push a) s = .next t ∧
      ∀ u : State, u.sp = t.sp → u.mem = t.mem →
        ∃ w : State, exec (.pop b) u = .next w ∧ w.regs[b.toNat] = s.regs[a.toNat] ∧ w.sp = s.sp

/-- R161: CALL pushes the address after it and jumps to the register's value, changing no other byte and nothing
else. -/
def Obligations.CallResult : Prop :=
  ∀ (a : Byte) (s : State) (ha : a.toNat < 8), s.pc.toNat + 2 ≤ 255 → 0 < s.sp.toNat → s.sp.toNat ≤ 256 →
    Memory.wf s.mem = true →
    ∃ t : State, exec (.call a) s = .next t ∧
      t = { s with sp := t.sp, mem := t.mem, pc := t.pc } ∧
      t.pc.toNat = s.regs[a.toNat].toNat ∧
      t.sp.toNat = s.sp.toNat - 1 ∧
      Memory.wf t.mem = true ∧
      ∀ k : Nat, t.memRead k = if k = s.sp.toNat - 1 then some (BitVec.ofNat 8 (s.pc.toNat + 2)) else s.memRead k

/-- R162: RET of a stack that is not empty jumps to the byte at `sp`, increments `sp`, and changes nothing else. -/
def Obligations.RetResult : Prop :=
  ∀ s : State, s.sp.toNat < 256 →
    ∃ v : Byte, s.memRead s.sp.toNat = some v ∧ (s.sp + 1).toNat = s.sp.toNat + 1 ∧
      exec .ret s = .next { s with sp := s.sp + 1, pc := BitVec.ofNat 9 v.toNat }

/-- R166: the byte CALL pushes is `pc + 2`; a CALL at 254 raises `RETURN_ADDRESS` with 256 before anything changes,
whatever `sp` is; a CALL at 255 raises `MEMORY_BOUNDS` in its fetch. -/
def Obligations.CallReturnAddress : Prop :=
  ∀ (a : Byte) (s : State), a.toNat < 8 →
    (s.pc.toNat + 2 ≤ 255 → 0 < s.sp.toNat → s.sp.toNat ≤ 256 → Memory.wf s.mem = true →
      ∃ (t : State) (v : Byte), exec (.call a) s = .next t ∧ t.memRead (s.sp.toNat - 1) = some v ∧
        v.toNat = s.pc.toNat + 2) ∧
    (s.pc.toNat = 254 →
      exec (.call a) s = .next { s with status := .faulted, fault := ⟨.returnAddress, s.pc, 256⟩ }) ∧
    (∀ p : Params, p.Distinct → s.status = .running → s.pc.toNat = 255 →
      s.memRead 255 = some (p.opcodeMap .call) →
      stepWith p s = .next { s with status := .faulted, fault := ⟨.memoryBounds, s.pc, 256⟩ })

/-- R167: a RET that finds `sp` and memory as a CALL left them continues after the CALL and restores `sp`. -/
def Obligations.CallThenRet : Prop :=
  ∀ (a : Byte) (s : State), a.toNat < 8 → s.pc.toNat + 2 ≤ 255 → 0 < s.sp.toNat → s.sp.toNat ≤ 256 →
    Memory.wf s.mem = true →
    ∃ t : State, exec (.call a) s = .next t ∧
      ∀ u : State, u.sp = t.sp → u.mem = t.mem →
        ∃ w : State, exec .ret u = .next w ∧ w.pc.toNat = s.pc.toNat + 2 ∧ w.sp = s.sp

/-- R160, R163 to R165: JMP assigns the register's value to `pc`; JEQ does when `fl.E` is set and JNE when it is clear,
and each else advances by 2; nothing else changes. -/
def Obligations.JumpResult : Prop :=
  ∀ (a : Byte) (s : State) (ha : a.toNat < 8),
    exec (.jmp a) s = .next { s with pc := BitVec.ofNat 9 s.regs[a.toNat].toNat } ∧
    exec (.jeq a) s = .next { s with
      pc := if s.flags.e = true then BitVec.ofNat 9 s.regs[a.toNat].toNat else s.pc + 2 } ∧
    exec (.jne a) s = .next { s with
      pc := if s.flags.e = false then BitVec.ofNat 9 s.regs[a.toNat].toNat else s.pc + 2 }

/-! ### Reset, load, runs -/

/-- R210: what reset leaves, whatever the state it is requested in. -/
def Obligations.ResetValues : Prop :=
  (∀ (p : Params) (σ : Session), σ.serve p .reset = .next ⟨State.reset, false⟩) ∧
  (∀ k : Nat, k < 256 → State.reset.memRead k = some 0) ∧
  (∀ r : Fin 8, State.reset.regs[r] = 0) ∧
  State.reset.pc.toNat = 0 ∧
  State.reset.sp.toNat = 256 ∧
  State.reset.flags = ⟨false, false, false⟩ ∧
  State.reset.status = .running ∧
  State.reset.fault = ⟨.none, 0, 0⟩ ∧
  State.reset.output = []

/-- R214: loading an image of at most 256 bytes puts byte `k` in cell `k`, leaves the other cells 0 and everything else
as reset left it; a longer image starts nothing; the load port writes the one cell before the first step and nothing
after it. -/
def Obligations.LoadInterface : Prop :=
  (∀ image : List Byte, image.length ≤ 256 →
    ∃ s : State, loadImage image = some s ∧ s = { State.reset with mem := s.mem } ∧ s.Inv ∧
      ∀ k : Nat, k < 256 → s.memRead k = some (image.getD k 0)) ∧
  (∀ image : List Byte, image.length > 256 → loadImage image = none) ∧
  (∀ (p : Params) (s : State) (addr data : Byte), Memory.wf s.mem = true →
    ∃ u : State, Session.serve p ⟨s, false⟩ (.load addr data) = .next ⟨u, false⟩ ∧ u = { s with mem := u.mem } ∧
      ∀ k : Nat, u.memRead k = if k = addr.toNat then some data else s.memRead k) ∧
  (∀ (p : Params) (s : State) (addr data : Byte), Session.serve p ⟨s, true⟩ (.load addr data) = .next ⟨s, true⟩) ∧
  (∀ (p : Params) (σ τ : Session), σ.serve p .step = .next τ → τ.stepped = true)

/-- R93: a step that ends a run is a HLT, and leaves `HALTED` with no fault; a divide by zero, and leaves `HALTED`; or
any other fault, and leaves `FAULTED`. HLT always ends it. -/
def Obligations.RunStopsByHltOrFault : Prop :=
  ∀ (p : Params) (s t : State), s.status = .running → stepWith p s = .next t →
    (t.status ≠ .running →
      (s.fetch p = .ok .hlt ∧ t.status = .halted ∧ t.fault = s.fault) ∨
      (t.status = .halted ∧ t.fault.cause = .divideByZero) ∨
      (t.status = .faulted ∧ t.fault.cause ≠ .none ∧ t.fault.cause ≠ .divideByZero)) ∧
    (s.fetch p = .ok .hlt → t.status = .halted)

/-- R80, R212: the CORE starts `RUNNING`; from `HALTED` and `FAULTED` no number of steps changes anything, no request
but reset leaves them, and reset does. -/
def Obligations.StoppedUntilReset : Prop :=
  State.reset.status = .running ∧
  ∀ (p : Params) (s : State), s.status ≠ .running →
    (∀ k : Nat, runWith p k s = .next s) ∧
    ∀ (stepped : Bool) (q : Request), ∃ τ : Session, Session.serve p ⟨s, stepped⟩ q = .next τ ∧
      τ.core.status = if q = .reset then .running else s.status

/-- R94: a run has at most one end, and stays in it. -/
def Obligations.EndOfRunIsUnique : Prop :=
  ∀ (p : Params) (s t : State) (k : Nat), EndsIn p s k t →
    (∀ (j : Nat) (u : State), EndsIn p s j u → j = k ∧ u = t) ∧
    ∀ j : Nat, k ≤ j → runWith p j s = .next t

/-- R29, R181, R216: the codes the ports show. -/
def Obligations.PortCodes : Prop :=
  ∀ s : State,
    s.ports.status.toNat = (match s.status with | .running => 0 | .halted => 1 | .faulted => 2) ∧
    s.ports.faultCause.toNat =
      (match s.fault.cause with
       | .none => 0 | .divideByZero => 1 | .unknownOpcode => 2 | .memoryBounds => 3 | .stackOverflow => 4
       | .stackUnderflow => 5 | .registerIndex => 6 | .returnAddress => 7) ∧
    s.ports.faultPc = s.fault.pc ∧ s.ports.faultValue = s.fault.value

/-- R191: the host's duty at the end of a run, in every state that has the invariant. -/
def Obligations.HostDutyByEnd : Prop :=
  ∀ s : State, s.Inv →
    (s.status = .running → s.hostDuty = none) ∧
    (s.status = .halted → s.fault.cause = .none → s.hostDuty = some .nothing) ∧
    (s.status = .halted → s.fault.cause ≠ .none → s.hostDuty = some .report) ∧
    (s.status = .faulted → s.fault.cause = .unknownOpcode → s.hostDuty = some .reportAndExit) ∧
    (s.status = .faulted → s.fault.cause ≠ .unknownOpcode → s.hostDuty = some .reportAndChoose)

/-- R94: every run has one observation and no other, its end state or its output sequence without an end; in that sequence
nothing follows an index that the run never writes. -/
def Obligations.ObservationOfRun : Prop :=
  ∀ (p : Params) (s : State),
    (∃ o : Observation, Observes p s o ∧ ∀ o' : Observation, Observes p s o' → o' = o) ∧
    ∀ out : Nat → Option Byte, Observes p s (.endless out) → ∀ n : Nat, out n = none → out (n + 1) = none

/-- R215: `DEFAULT_PROGRAM` is the host's: without a program the host loads it, like any other image; a supplied program
is loaded in its place; and no step depends on it. -/
def Obligations.DefaultProgramIsTheHosts : Prop :=
  ∀ p : Params,
    boot p none = loadImage p.defaultProgram ∧
    (∀ image : List Byte, boot p (some image) = loadImage image) ∧
    ∀ (program : List Byte) (s : State), stepWith { p with defaultProgram := program } s = stepWith p s

/-! ### The parameters -/

/-- R9: the value column of the parameter table; and at R9's sizes, whatever `OPCODE_MAP`, `DECODE_SUB_DIV` and
`DEFAULT_PROGRAM` are, the reset, the boot and the step of the machine of the table are those of the other statements. -/
def Obligations.MachineAtR9Values : Prop :=
  (MachineParams.thisHardware.toParams = Params.thisHardware ∧ MachineParams.thisHardware.memSize = 256 ∧
    MachineParams.thisHardware.numRegs = 8 ∧ MachineParams.thisHardware.regWidth = 8 ∧
    MachineParams.thisHardware.pcWidth = 9 ∧ MachineParams.thisHardware.spWidth = 9 ∧
    MachineParams.thisHardware.spReset = 256) ∧
  (∀ p : Params, MachineParams.reset { toParams := p } = State.reset ∧
    (∀ supplied : Option (List Byte), MachineParams.boot { toParams := p } supplied = boot p supplied) ∧
    ∀ s : State, MachineParams.step { toParams := p } s = stepWith p s) ∧
  ∀ s : State, MachineParams.thisHardware.step s = step s

/-- R9, R36, R43, R82, R88: for any values of the parameters, reset leaves `SP_RESET` in `sp`; a fetch at or past
`MEM_SIZE` raises `MEMORY_BOUNDS`; a fetched instruction has its bytes below `MEM_SIZE`; and a fetched
instruction with an operand that names no register below `NUM_REGS` raises `REGISTER_INDEX` with the first such
operand. -/
def Obligations.ParametersBoundTheMachine : Prop :=
  ∀ q : MachineParams,
    q.reset.sp.toNat = q.spReset % 2 ^ q.spWidth ∧
    ∀ s : q.StateType, s.status = .running →
      (q.memSize ≤ s.pc.toNat → q.step s = .next (s.raise .memoryBounds s.pc)) ∧
      ∀ i : Instr, s.fetch q.toParams = .ok i →
        s.pc.toNat + i.width ≤ q.memSize ∧
        ∀ a : Byte, i.regOperands.find? (fun x => decide (q.numRegs ≤ x.toNat)) = some a →
          q.step s = .next (s.raise .registerIndex (Ptr.ofByte a))
end

