-- ==== Sys2Proof/Laws/Decode.lean ====
section
/-! SUPPORT. The decoder: what phase D can answer, and what the fetched bytes of a decoded instruction are. -/

namespace Sys2Proof

theorem Mnemonic.mem_all (m : Mnemonic) : m ∈ Mnemonic.all := by cases m <;> decide

theorem Mnemonic.filter_all_eq (m : Mnemonic) : Mnemonic.all.filter (fun n => decide (n = m)) = [m] := by
  cases m <;> decide

/-- The opcode bytes are distinct when they are so over the list of mnemonics. -/
theorem Params.distinct_of_all (p : Params)
    (h : ∀ m ∈ Mnemonic.all, ∀ n ∈ Mnemonic.all, p.opcodeMap m = p.opcodeMap n → m = n) : p.Distinct :=
  fun m n => h m m.mem_all n n.mem_all

/-- The default `OPCODE_MAP` assigns distinct bytes to distinct mnemonics (R66). -/
theorem defaultOpcodeMap_distinct (subDiv : Bool) (program : List Byte) :
    Params.Distinct ⟨defaultOpcodeMap, subDiv, program⟩ :=
  Params.distinct_of_all _
    (show ∀ m ∈ Mnemonic.all, ∀ n ∈ Mnemonic.all, defaultOpcodeMap m = defaultOpcodeMap n → m = n by decide)

/-- Phase D answers only a row that takes part in decoding and has that opcode byte. -/
theorem decodeOpcode_some {p : Params} {op : Byte} {m : Mnemonic} (h : decodeOpcode p op = some m) :
    p.decodes m = true ∧ p.opcodeMap m = op := by
  simp only [decodeOpcode] at h
  split at h
  · rename_i n hn
    cases h
    have := (List.mem_filter.mp (hn ▸ List.mem_singleton_self m)).2
    simpa using this
  · cases h

/-- With distinct opcode bytes phase D finds the row of an opcode byte. -/
theorem decodeOpcode_opcodeMap {p : Params} (hd : p.Distinct) {m : Mnemonic} (hm : p.decodes m = true) :
    decodeOpcode p (p.opcodeMap m) = some m := by
  have : (Mnemonic.all.filter fun n => p.decodes n && p.opcodeMap n == p.opcodeMap m) = [m] := by
    rw [← Mnemonic.filter_all_eq m]
    apply List.filter_congr
    intro n _
    by_cases hn : n = m
    · subst hn; simp [hm]
    · have : p.opcodeMap n ≠ p.opcodeMap m := fun e => hn (hd n m e)
      simp [hn, this]
  simp [decodeOpcode, this]

/-- A byte that no row taking part in decoding has decodes as nothing. -/
theorem decodeOpcode_none_of {p : Params} {op : Byte}
    (h : ∀ m : Mnemonic, p.decodes m = true → p.opcodeMap m ≠ op) : decodeOpcode p op = none := by
  cases hd : decodeOpcode p op with
  | none => rfl
  | some m => exact absurd (decodeOpcode_some hd).2 (h m (decodeOpcode_some hd).1)

/-- With distinct opcode bytes phase D is the first entry that matches. -/
theorem decodeOpcode_eq_find {p : Params} (hd : p.Distinct) (op : Byte) :
    decodeOpcode p op = Mnemonic.all.find? fun m => p.decodes m && p.opcodeMap m == op := by
  cases hf : Mnemonic.all.find? fun m => p.decodes m && p.opcodeMap m == op with
  | none =>
    apply decodeOpcode_none_of
    intro m hm e
    have := List.find?_eq_none.mp hf m m.mem_all
    simp [hm, e] at this
  | some m =>
    have := List.find?_some hf
    simp only [Bool.and_eq_true, beq_iff_eq] at this
    rw [← this.2, decodeOpcode_opcodeMap hd this.1]

@[simp] theorem Mnemonic.toInstr_mnemonic (m : Mnemonic) (a b : Byte) : (m.toInstr a b).mnemonic = m := by
  cases m <;> rfl

theorem Mnemonic.toInstr_operands (m : Mnemonic) (a b : Byte) :
    (m.toInstr a b).operands =
      match m.format with
      | .n => []
      | .r => [a]
      | .rr | .ri => [a, b] := by
  cases m <;> rfl

/-- Decoding after the opcode byte has given its row. -/
theorem decodeFrom_known {p : Params} {f : Nat → Option Byte} {op : Byte} {m : Mnemonic} (h0 : f 0 = some op)
    (hm : decodeOpcode p op = some m) :
    decodeFrom p f =
      match m.format with
      | .n => .ok (m.toInstr 0 0)
      | .r =>
        match f 1 with
        | none => .error (.noByte 1)
        | some a => .ok (m.toInstr a 0)
      | .rr | .ri =>
        match f 1 with
        | none => .error (.noByte 1)
        | some a =>
          match f 2 with
          | none => .error (.noByte 2)
          | some b => .ok (m.toInstr a b) := by
  cases hf : m.format <;> cases h1 : f 1 <;> cases h2 : f 2 <;> simp only [decodeFrom, h0, hm, hf, h1, h2]

/-- The opcode byte that a decoded instruction was found by. -/
theorem decodeFrom_ok_mnemonic {p : Params} {f : Nat → Option Byte} {i : Instr} (h : decodeFrom p f = .ok i) :
    ∃ op, f 0 = some op ∧ decodeOpcode p op = some i.mnemonic := by
  unfold decodeFrom at h
  cases h0 : f 0 with
  | none => simp [h0] at h
  | some op =>
    refine ⟨op, rfl, ?_⟩
    simp only [h0] at h
    cases hm : decodeOpcode p op with
    | none => simp [hm] at h
    | some m =>
      simp only [hm] at h
      cases hf : m.format <;> simp only [hf] at h <;> (repeat' split at h) <;> cases h <;> simp

/-- The bytes a decoded instruction was read from, at its own positions, are its encoding. -/
theorem decodeFrom_ok_bytes {p : Params} {f : Nat → Option Byte} {i : Instr} (h : decodeFrom p f = .ok i) :
    ∀ k, k < i.width → f k = (encode p i)[k]? := by
  unfold decodeFrom at h
  cases h0 : f 0 with
  | none => simp [h0] at h
  | some op =>
    simp only [h0] at h
    cases hm : decodeOpcode p op with
    | none => simp [hm] at h
    | some m =>
      have hop := (decodeOpcode_some hm).2
      simp only [hm] at h
      cases hf : m.format <;> simp only [hf] at h <;> (repeat' split at h) <;> cases h <;> intro k hk <;>
        simp only [Instr.width, Mnemonic.toInstr_mnemonic, Mnemonic.width, hf, Format.width] at hk <;>
        interval_cases k <;> simp_all [encode, Mnemonic.toInstr_operands]

/-- A missing byte: the opcode, or an operand of the row the opcode byte has, the bytes before it being there. -/
theorem decodeFrom_noByte {p : Params} {f : Nat → Option Byte} {k : Nat} (h : decodeFrom p f = .error (.noByte k)) :
    f k = none ∧ (∀ j, j < k → f j ≠ none) ∧
      (k = 0 ∨ ∃ op m, f 0 = some op ∧ decodeOpcode p op = some m ∧ k < m.width ∧ m.width ≤ 3) := by
  unfold decodeFrom at h
  cases h0 : f 0 with
  | none => simp only [h0] at h; cases h; simp [h0]
  | some op =>
    simp only [h0] at h
    cases hm : decodeOpcode p op with
    | none => simp [hm] at h
    | some m =>
      simp only [hm] at h
      cases hf : m.format <;> simp only [hf] at h <;> (repeat' split at h) <;> cases h <;>
        refine ⟨by assumption, ?_, .inr ⟨op, m, rfl, hm, by simp [Mnemonic.width, hf, Format.width],
          by simp [Mnemonic.width, hf, Format.width]⟩⟩ <;> intro j hj <;> interval_cases j <;> simp_all

/-- An unknown opcode byte was read, and phase D answers nothing for it. -/
theorem decodeFrom_unknownOpcode {p : Params} {f : Nat → Option Byte} {op : Byte}
    (h : decodeFrom p f = .error (.unknownOpcode op)) : f 0 = some op ∧ decodeOpcode p op = none := by
  unfold decodeFrom at h
  cases h0 : f 0 with
  | none => simp [h0] at h
  | some op' =>
    simp only [h0] at h
    cases hm : decodeOpcode p op' with
    | none => simp only [hm] at h; cases h; exact ⟨rfl, hm⟩
    | some m =>
      simp only [hm] at h
      cases hf : m.format <;> simp only [hf] at h <;> (repeat' split at h) <;> cases h

end Sys2Proof
end

