-- ==== Sys2Proof/Laws/State.lean ====
section
/-! SUPPORT. One lemma for each field under each update of the state, so that no proof unfolds a record update. -/

namespace Sys2Proof

/-! ### Pointers from bytes -/

@[simp] theorem Ptr.ofByte_toNat (v : Byte) : (Ptr.ofByte v : Ptr).toNat = v.toNat := by
  rw [Ptr.ofByte, BitVec.toNat_setWidth, Nat.mod_eq_of_lt (Nat.lt_of_lt_of_le v.isLt (by decide))]

theorem Ptr.ofByte_eq_ofNat (v : Byte) : (Ptr.ofByte v : Ptr) = BitVec.ofNat 9 v.toNat := by
  apply BitVec.eq_of_toNat_eq
  have := v.isLt
  simp [Ptr.ofByte]

end Sys2Proof

namespace Sys2Proof.Machine

variable {M N W P S : Nat} (s : State M N W P S)

/-! ### setReg -/

@[simp] theorem State.setReg_regs (i : Fin N) (v : BitVec W) : (s.setReg i v).regs = s.regs.set i v := rfl
@[simp] theorem State.setReg_pc (i : Fin N) (v : BitVec W) : (s.setReg i v).pc = s.pc := rfl
@[simp] theorem State.setReg_sp (i : Fin N) (v : BitVec W) : (s.setReg i v).sp = s.sp := rfl
@[simp] theorem State.setReg_flags (i : Fin N) (v : BitVec W) : (s.setReg i v).flags = s.flags := rfl
@[simp] theorem State.setReg_status (i : Fin N) (v : BitVec W) : (s.setReg i v).status = s.status := rfl
@[simp] theorem State.setReg_fault (i : Fin N) (v : BitVec W) : (s.setReg i v).fault = s.fault := rfl
@[simp] theorem State.setReg_mem (i : Fin N) (v : BitVec W) : (s.setReg i v).mem = s.mem := rfl
@[simp] theorem State.setReg_output (i : Fin N) (v : BitVec W) : (s.setReg i v).output = s.output := rfl
@[simp] theorem State.setReg_memRead (i : Fin N) (v : BitVec W) (k : Nat) :
    (s.setReg i v).memRead k = s.memRead k := rfl

/-! ### setFlags -/

@[simp] theorem State.setFlags_regs (f : Flags) : (s.setFlags f).regs = s.regs := rfl
@[simp] theorem State.setFlags_pc (f : Flags) : (s.setFlags f).pc = s.pc := rfl
@[simp] theorem State.setFlags_sp (f : Flags) : (s.setFlags f).sp = s.sp := rfl
@[simp] theorem State.setFlags_flags (f : Flags) : (s.setFlags f).flags = f := rfl
@[simp] theorem State.setFlags_status (f : Flags) : (s.setFlags f).status = s.status := rfl
@[simp] theorem State.setFlags_fault (f : Flags) : (s.setFlags f).fault = s.fault := rfl
@[simp] theorem State.setFlags_mem (f : Flags) : (s.setFlags f).mem = s.mem := rfl
@[simp] theorem State.setFlags_output (f : Flags) : (s.setFlags f).output = s.output := rfl
@[simp] theorem State.setFlags_reg (f : Flags) (r : Fin N) : (s.setFlags f).reg r = s.reg r := rfl
@[simp] theorem State.setFlags_memRead (f : Flags) (k : Nat) : (s.setFlags f).memRead k = s.memRead k := rfl

/-! ### setPc -/

@[simp] theorem State.setPc_regs {w : Nat} (t : BitVec w) : (s.setPc t).regs = s.regs := rfl
@[simp] theorem State.setPc_pc {w : Nat} (t : BitVec w) : (s.setPc t).pc = Ptr.ofByte t := rfl
@[simp] theorem State.setPc_sp {w : Nat} (t : BitVec w) : (s.setPc t).sp = s.sp := rfl
@[simp] theorem State.setPc_flags {w : Nat} (t : BitVec w) : (s.setPc t).flags = s.flags := rfl
@[simp] theorem State.setPc_status {w : Nat} (t : BitVec w) : (s.setPc t).status = s.status := rfl
@[simp] theorem State.setPc_fault {w : Nat} (t : BitVec w) : (s.setPc t).fault = s.fault := rfl
@[simp] theorem State.setPc_mem {w : Nat} (t : BitVec w) : (s.setPc t).mem = s.mem := rfl
@[simp] theorem State.setPc_output {w : Nat} (t : BitVec w) : (s.setPc t).output = s.output := rfl
@[simp] theorem State.setPc_reg (t : Byte) (r : Fin N) : (s.setPc t).reg r = s.reg r := rfl
@[simp] theorem State.setPc_memRead (t : Byte) (k : Nat) : (s.setPc t).memRead k = s.memRead k := rfl

/-! ### advance -/

@[simp] theorem State.advance_regs (w : Nat) : (s.advance w).regs = s.regs := rfl
@[simp] theorem State.advance_pc (w : Nat) : (s.advance w).pc = s.pc + BitVec.ofNat P w := rfl
@[simp] theorem State.advance_sp (w : Nat) : (s.advance w).sp = s.sp := rfl
@[simp] theorem State.advance_flags (w : Nat) : (s.advance w).flags = s.flags := rfl
@[simp] theorem State.advance_status (w : Nat) : (s.advance w).status = s.status := rfl
@[simp] theorem State.advance_fault (w : Nat) : (s.advance w).fault = s.fault := rfl
@[simp] theorem State.advance_mem (w : Nat) : (s.advance w).mem = s.mem := rfl
@[simp] theorem State.advance_output (w : Nat) : (s.advance w).output = s.output := rfl
@[simp] theorem State.advance_reg (w : Nat) (r : Fin N) : (s.advance w).reg r = s.reg r := rfl
@[simp] theorem State.advance_memRead (w : Nat) (k : Nat) : (s.advance w).memRead k = s.memRead k := rfl

/-! ### emit -/

@[simp] theorem State.emit_regs (v : Byte) : (s.emit v).regs = s.regs := rfl
@[simp] theorem State.emit_pc (v : Byte) : (s.emit v).pc = s.pc := rfl
@[simp] theorem State.emit_sp (v : Byte) : (s.emit v).sp = s.sp := rfl
@[simp] theorem State.emit_flags (v : Byte) : (s.emit v).flags = s.flags := rfl
@[simp] theorem State.emit_status (v : Byte) : (s.emit v).status = s.status := rfl
@[simp] theorem State.emit_fault (v : Byte) : (s.emit v).fault = s.fault := rfl
@[simp] theorem State.emit_mem (v : Byte) : (s.emit v).mem = s.mem := rfl
@[simp] theorem State.emit_output (v : Byte) : (s.emit v).output = s.output ++ [v] := rfl
@[simp] theorem State.emit_reg (v : Byte) (r : Fin N) : (s.emit v).reg r = s.reg r := rfl
@[simp] theorem State.emit_memRead (v : Byte) (k : Nat) : (s.emit v).memRead k = s.memRead k := rfl

/-! ### halt -/

@[simp] theorem State.halt_regs : s.halt.regs = s.regs := rfl
@[simp] theorem State.halt_pc : s.halt.pc = s.pc := rfl
@[simp] theorem State.halt_sp : s.halt.sp = s.sp := rfl
@[simp] theorem State.halt_flags : s.halt.flags = s.flags := rfl
@[simp] theorem State.halt_status : s.halt.status = .halted := rfl
@[simp] theorem State.halt_fault : s.halt.fault = s.fault := rfl
@[simp] theorem State.halt_mem : s.halt.mem = s.mem := rfl
@[simp] theorem State.halt_output : s.halt.output = s.output := rfl
@[simp] theorem State.halt_reg (r : Fin N) : s.halt.reg r = s.reg r := rfl
@[simp] theorem State.halt_memRead (k : Nat) : s.halt.memRead k = s.memRead k := rfl

/-! ### raise -/

@[simp] theorem State.raise_regs (c : Cause) (v : BitVec P) : (s.raise c v).regs = s.regs := rfl
@[simp] theorem State.raise_pc (c : Cause) (v : BitVec P) : (s.raise c v).pc = s.pc := rfl
@[simp] theorem State.raise_sp (c : Cause) (v : BitVec P) : (s.raise c v).sp = s.sp := rfl
@[simp] theorem State.raise_flags (c : Cause) (v : BitVec P) : (s.raise c v).flags = s.flags := rfl
@[simp] theorem State.raise_status (c : Cause) (v : BitVec P) : (s.raise c v).status = c.statusAfter := rfl
@[simp] theorem State.raise_fault (c : Cause) (v : BitVec P) : (s.raise c v).fault = ⟨c, s.pc, v⟩ := rfl
@[simp] theorem State.raise_mem (c : Cause) (v : BitVec P) : (s.raise c v).mem = s.mem := rfl
@[simp] theorem State.raise_output (c : Cause) (v : BitVec P) : (s.raise c v).output = s.output := rfl
@[simp] theorem State.raise_reg (c : Cause) (v : BitVec P) (r : Fin N) : (s.raise c v).reg r = s.reg r := rfl
@[simp] theorem State.raise_memRead (c : Cause) (v : BitVec P) (k : Nat) : (s.raise c v).memRead k = s.memRead k := rfl

/-! ### reset -/

@[simp] theorem State.reset_regs : State.reset.regs = Vector.replicate 8 0 := rfl
@[simp] theorem State.reset_pc : State.reset.pc = 0 := rfl
@[simp] theorem State.reset_sp : State.reset.sp = 256 := rfl
@[simp] theorem State.reset_flags : State.reset.flags = ⟨false, false, false⟩ := rfl
@[simp] theorem State.reset_status : State.reset.status = .running := rfl
@[simp] theorem State.reset_fault : State.reset.fault = ⟨.none, 0, 0⟩ := rfl
@[simp] theorem State.reset_mem : State.reset.mem = [] := rfl
@[simp] theorem State.reset_output : State.reset.output = [] := rfl

/-! ### Reading a register after a write -/

@[simp] theorem State.setReg_reg_same (i : Fin N) (v : BitVec W) : (s.setReg i v).reg i = v := by
  simp [State.reg]

theorem State.setReg_reg_other (i r : Fin N) (v : BitVec W) (h : r ≠ i) : (s.setReg i v).reg r = s.reg r := by
  have : i.val ≠ r.val := fun e => h (Fin.ext e.symm)
  simp [State.reg, this]

end Sys2Proof.Machine
end

