-- ==== Sys2Proof/Laws/Memory.lean ====
section
/-! SUPPORT. Memory: a read after a write, the canonical form, and what each operation over memory can do. -/

namespace Sys2Proof.Machine

/-! ### The list -/

theorem Memory.read_write_other (m : Memory) (k j : Nat) (v : Byte) (h : j ≠ k) :
    Memory.read (Memory.write m k v) j = Memory.read m j := by
  induction m with
  | nil => by_cases hv : v = Memory.unlisted <;> simp [Memory.write, Memory.read, hv, h.symm]
  | cons c m ih =>
    obtain ⟨a, w⟩ := c
    simp only [Memory.write]
    split_ifs with c1 c2 c3 c4
    · simp [Memory.read, ih]
    · simp [Memory.read, c2, h.symm]
    · simp [Memory.read, c2, h.symm]
    · rfl
    · simp [Memory.read, h.symm]

/-- Below the first listed address every cell is unlisted. -/
theorem Memory.read_below (m : Memory) (lo k : Nat) (h : Memory.wfFrom lo m = true) (hk : k < lo) :
    Memory.read m k = Memory.unlisted := by
  induction m generalizing lo with
  | nil => rfl
  | cons c m ih =>
    obtain ⟨a, w⟩ := c
    simp only [Memory.wfFrom, Bool.and_eq_true, decide_eq_true_eq] at h
    obtain ⟨⟨⟨h1, -⟩, -⟩, h4⟩ := h
    have hne : a ≠ k := by omega
    simp only [Memory.read, hne, if_false]
    exact ih (a + 1) h4 (by omega)

theorem Memory.read_write_same_from (m : Memory) (lo k : Nat) (v : Byte) (h : Memory.wfFrom lo m = true) :
    Memory.read (Memory.write m k v) k = v := by
  induction m generalizing lo with
  | nil => by_cases hv : v = Memory.unlisted <;> simp [Memory.write, Memory.read, hv]
  | cons c m ih =>
    obtain ⟨a, w⟩ := c
    simp only [Memory.wfFrom, Bool.and_eq_true, decide_eq_true_eq] at h
    obtain ⟨⟨⟨-, -⟩, -⟩, h4⟩ := h
    simp only [Memory.write]
    split_ifs with h1 h2 h3 h5
    · simp only [Memory.read, show a ≠ k by omega, if_false]
      exact ih (a + 1) h4
    · subst h2 h3
      exact Memory.read_below m (a + 1) a h4 (by omega)
    · simp [Memory.read]
    · subst h5
      simp only [Memory.read, h2, if_false]
      exact Memory.read_below m (a + 1) k h4 (by omega)
    · simp [Memory.read]

/-- A read of the cell just written gives the value written. -/
theorem Memory.read_write_same (m : Memory) (k : Nat) (v : Byte) (h : Memory.wf m = true) :
    Memory.read (Memory.write m k v) k = v :=
  Memory.read_write_same_from m 0 k v h

theorem Memory.wfFrom_mono (m : Memory) (lo lo' : Nat) (hl : lo' ≤ lo) (h : Memory.wfFrom lo m = true) :
    Memory.wfFrom lo' m = true := by
  cases m with
  | nil => rfl
  | cons c m =>
    simp only [Memory.wfFrom, Bool.and_eq_true, decide_eq_true_eq] at h ⊢
    exact ⟨⟨⟨by omega, h.1.1.2⟩, h.1.2⟩, h.2⟩

theorem Memory.wfFrom_write (m : Memory) (lo k : Nat) (v : Byte) (hlo : lo ≤ k) (hk : k < 256)
    (h : Memory.wfFrom lo m = true) : Memory.wfFrom lo (Memory.write m k v) = true := by
  induction m generalizing lo with
  | nil => by_cases hv : v = Memory.unlisted <;> simp [Memory.write, Memory.wfFrom, hv, hlo, hk]
  | cons c m ih =>
    obtain ⟨a, w⟩ := c
    have h' := h
    simp only [Memory.wfFrom, Bool.and_eq_true, decide_eq_true_eq] at h'
    obtain ⟨⟨⟨h1, h2⟩, h3⟩, h4⟩ := h'
    simp only [Memory.write]
    split_ifs with c1 c2 c3 c4
    · simp [Memory.wfFrom, h1, h2, h3, ih (a + 1) (by omega) h4]
    · exact Memory.wfFrom_mono m (a + 1) lo (by omega) h4
    · subst c2
      simp [Memory.wfFrom, h1, h2, c3, h4]
    · exact h
    · have : Memory.wfFrom (M := 256) (k + 1) ((a, w) :: m) = true := by
        simp [Memory.wfFrom, h2, h3, h4]
        omega
      simp only [Memory.wfFrom, Bool.and_eq_true, decide_eq_true_eq]
      exact ⟨⟨⟨hlo, hk⟩, c4⟩, by simpa [Memory.wfFrom] using this⟩

/-- Writing a cell that exists keeps the canonical form. -/
theorem Memory.wf_write (m : Memory) (k : Nat) (v : Byte) (hk : k < 256) (h : Memory.wf m = true) :
    Memory.wf (Memory.write m k v) = true :=
  Memory.wfFrom_write m 0 k v (by omega) hk h

/-! ### Reads and writes through the state -/

theorem State.memRead_eq (s : State) (k : Nat) (h : k < 256) : s.memRead k = some (Memory.read s.mem k) := by
  simp [State.memRead, h]

theorem State.memRead_none (s : State) (k : Nat) : s.memRead k = none ↔ 256 ≤ k := by
  simp [State.memRead]

theorem State.memRead_of_ge (s : State) (k : Nat) (h : 256 ≤ k) : s.memRead k = none := by
  simp [State.memRead, show ¬ k < 256 by omega]

theorem State.memRead_some {s : State} {k : Nat} {v : Byte} (h : s.memRead k = some v) :
    k < 256 ∧ v = Memory.read s.mem k := by
  simp only [State.memRead, Option.ite_none_right_eq_some, Option.some.injEq] at h
  exact ⟨h.1, h.2.symm⟩

/-- Two states with the same memory read alike. -/
theorem State.memRead_congr {s t : State} (h : t.mem = s.mem) (k : Nat) : t.memRead k = s.memRead k := by
  simp [State.memRead, h]

/-- What a successful memory write can do. -/
theorem State.memWrite_some {s t : State} {k : Nat} {v : Byte} (h : s.memWrite k v = some t) :
    k < 256 ∧ t = { s with mem := Memory.write s.mem k v } := by
  simp only [State.memWrite, Option.ite_none_right_eq_some, Option.some.injEq] at h
  exact ⟨h.1, h.2.symm⟩

theorem State.memWrite_eq (s : State) (k : Nat) (v : Byte) (h : k < 256) :
    s.memWrite k v = some { s with mem := Memory.write s.mem k v } := by
  simp [State.memWrite, h]

/-- Every read after a write. -/
theorem State.memRead_write (s : State) (k j : Nat) (v : Byte) (hk : k < 256) (h : Memory.wf s.mem = true) :
    State.memRead { s with mem := Memory.write s.mem k v } j = if j = k then some v else s.memRead j := by
  by_cases hj : j = k
  · subst hj
    simp [State.memRead, hk, Memory.read_write_same _ _ _ h]
  · simp [State.memRead, hj, Memory.read_write_other _ _ _ _ hj]

/-! ### The stack primitives -/

/-- The decremented stack pointer. -/
theorem State.sp_pred (s : State) (h : 0 < s.sp.toNat) : (s.sp - 1).toNat = s.sp.toNat - 1 := by
  rw [BitVec.toNat_sub_of_le] <;> simp [BitVec.le_def]; omega

/-- The incremented stack pointer. -/
theorem State.sp_succ (s : State) (h : s.sp.toNat < 256) : (s.sp + 1).toNat = s.sp.toNat + 1 := by
  rw [BitVec.toNat_add]; simp; omega

/-- A push completes exactly when `sp` is 1 to 256, and then writes the one byte below the old `sp`. -/
theorem State.push_eq (s : State) (v : Byte) :
    s.push v =
      if 0 < s.sp.toNat ∧ s.sp.toNat ≤ 256 then
        some { s with sp := s.sp - 1, mem := Memory.write s.mem (s.sp.toNat - 1) v }
      else none := by
  by_cases h0 : s.sp = 0
  · simp [State.push, h0]
  · have h1 : 0 < s.sp.toNat := Nat.pos_of_ne_zero fun h => h0 (BitVec.eq_of_toNat_eq (by simpa using h))
    simp only [State.push, h0, if_false, State.sp_pred s h1, State.memWrite, h1, true_and]
    by_cases h3 : s.sp.toNat ≤ 256
    · rw [if_pos (by omega), if_pos h3]
    · rw [if_neg (by omega), if_neg h3]

theorem State.push_ok (s : State) (v : Byte) (h0 : 0 < s.sp.toNat) (h1 : s.sp.toNat ≤ 256) :
    s.push v = some { s with sp := s.sp - 1, mem := Memory.write s.mem (s.sp.toNat - 1) v } := by
  rw [State.push_eq, if_pos ⟨h0, h1⟩]

theorem State.push_full (s : State) (v : Byte) (h : s.sp = 0) : s.push v = none := by simp [State.push, h]

theorem State.push_some {s t : State} {v : Byte} (h : s.push v = some t) :
    0 < s.sp.toNat ∧ s.sp.toNat ≤ 256 ∧
      t = { s with sp := s.sp - 1, mem := Memory.write s.mem (s.sp.toNat - 1) v } := by
  rw [State.push_eq] at h
  split_ifs at h with hc
  exact ⟨hc.1, hc.2, (Option.some.inj h).symm⟩

theorem State.push_none {s : State} {v : Byte} (h : s.push v = none) : s.sp.toNat = 0 ∨ 256 < s.sp.toNat := by
  rw [State.push_eq] at h
  split_ifs at h with hc
  omega

/-- A pop completes exactly when `sp` is below 256. -/
theorem State.pop_eq (s : State) :
    s.pop =
      if s.sp.toNat < 256 then some (Memory.read s.mem s.sp.toNat, { s with sp := s.sp + 1 }) else none := by
  by_cases h : s.sp.toNat < 256 <;> simp [State.pop, State.memRead, h]

theorem State.pop_ok (s : State) (h : s.sp.toNat < 256) :
    s.pop = some (Memory.read s.mem s.sp.toNat, { s with sp := s.sp + 1 }) := by
  rw [State.pop_eq, if_pos h]

theorem State.pop_empty (s : State) (h : s.sp = 256) : s.pop = none := by simp [State.pop_eq, h]

theorem State.pop_some {s t : State} {v : Byte} (h : s.pop = some (v, t)) :
    s.sp.toNat < 256 ∧ v = Memory.read s.mem s.sp.toNat ∧ t = { s with sp := s.sp + 1 } := by
  rw [State.pop_eq] at h
  split_ifs at h with hc
  simp only [Option.some.injEq, Prod.mk.injEq] at h
  exact ⟨hc, h.1.symm, h.2.symm⟩

theorem State.pop_none {s : State} (h : s.pop = none) : 256 ≤ s.sp.toNat := by
  rw [State.pop_eq] at h
  split_ifs at h with hc
  omega

/-! ### Placing bytes -/

theorem State.placeBytes_mem_only (bytes : List Byte) (s : State) (addr : Nat) :
    s.placeBytes addr bytes = { s with mem := (s.placeBytes addr bytes).mem } := by
  induction bytes generalizing s addr with
  | nil => rfl
  | cons v bytes ih =>
    simp only [State.placeBytes]
    rw [ih]
    by_cases h : addr < 256 <;> simp [State.memWrite, h]

theorem State.placeBytes_wf (bytes : List Byte) (s : State) (addr : Nat) (h : Memory.wf s.mem = true) :
    Memory.wf (s.placeBytes addr bytes).mem = true := by
  induction bytes generalizing s addr with
  | nil => exact h
  | cons v bytes ih =>
    simp only [State.placeBytes]
    apply ih
    by_cases ha : addr < 256
    · simpa [State.memWrite, ha] using Memory.wf_write s.mem addr v ha h
    · simpa [State.memWrite, ha] using h

/-- Every read after bytes were placed from `addr` on. -/
theorem State.placeBytes_memRead (bytes : List Byte) (s : State) (addr k : Nat) (h : Memory.wf s.mem = true)
    (hk : k < 256) :
    (s.placeBytes addr bytes).memRead k =
      if addr ≤ k ∧ k < addr + bytes.length then bytes[k - addr]? else s.memRead k := by
  induction bytes generalizing s addr with
  | nil => simp [State.placeBytes]
  | cons v bytes ih =>
    simp only [State.placeBytes]
    by_cases ha : addr < 256
    · rw [State.memWrite_eq _ _ _ ha, Option.getD_some, ih _ _ (Memory.wf_write _ _ _ ha h),
        State.memRead_write _ _ _ _ ha h]
      rcases Nat.lt_trichotomy k addr with hlt | heq | hgt
      · simp [show ¬ addr + 1 ≤ k by omega, show ¬ addr ≤ k by omega, show k ≠ addr by omega]
      · subst heq; simp
      · obtain ⟨d, rfl⟩ : ∃ d, k = addr + 1 + d := ⟨k - (addr + 1), by omega⟩
        have e1 : addr + 1 + d - (addr + 1) = d := by omega
        have e2 : addr + 1 + d - addr = d + 1 := by omega
        rw [e1, e2, List.getElem?_cons_succ, List.length_cons]
        by_cases hl : d < bytes.length
        · rw [if_pos (by omega), if_pos (by omega)]
        · rw [if_neg (by omega), if_neg (by omega), if_neg (by omega)]
    · rw [show s.memWrite addr v = none by simp [State.memWrite, ha], Option.getD_none, ih _ _ h]
      simp [show ¬ addr + 1 ≤ k by omega, show ¬ addr ≤ k by omega]

end Sys2Proof.Machine
end

