-- ==== Sys2Proof/Laws/Exec.lean ====
section
/-! SUPPORT. Phase V, the common form of the ALU instructions, and once for all what executing an instruction can do:
it takes a fault, or it completes. -/

namespace Sys2Proof.Machine

/-! ### Phase V -/

theorem regIndex_of_lt (a : Byte) (h : a.toNat < 8) : regIndex a = some ⟨a.toNat, h⟩ := by simp [regIndex, h]

theorem withReg_of_lt (a : Byte) (s : State) (k : Fin 8 → Host.Outcome State Fault Refusal) (h : a.toNat < 8) :
    withReg a s k = k ⟨a.toNat, h⟩ := by simp [withReg, regIndex_of_lt a h]

theorem withReg_of_ge (a : Byte) (s : State) (k : Fin 8 → Host.Outcome State Fault Refusal) (h : 8 ≤ a.toNat) :
    withReg a s k = raised .registerIndex (Ptr.ofByte a) s := by
  simp [withReg, regIndex, show ¬ a.toNat < 8 by omega]

/-- What phase V can do: raise `REGISTER_INDEX`, or go on with the register the byte names. -/
theorem withReg_next {a : Byte} {s t : State} {k : Fin 8 → Host.Outcome State Fault Refusal}
    (h : withReg a s k = .next t) :
    (8 ≤ a.toNat ∧ t = s.raise .registerIndex (Ptr.ofByte a)) ∨
      ∃ ha : a.toNat < 8, k ⟨a.toNat, ha⟩ = .next t := by
  by_cases ha : a.toNat < 8
  · exact .inr ⟨ha, by rwa [withReg_of_lt a s k ha] at h⟩
  · rw [withReg_of_ge a s k (by omega)] at h
    exact .inl ⟨by omega, by simpa [raised] using h.symm⟩

/-! ### The meanings that convert a width, at this hardware's widths, where nothing is converted -/

theorem execLdi_eq (a b : Byte) (s : State) :
    execLdi a b s = withReg a s fun i => .next ((s.setReg i b).advance 3) := by
  simp only [execLdi, BitVec.setWidth_eq]

theorem execPrn_eq (a : Byte) (s : State) :
    execPrn a s = withReg a s fun i => .next ((s.emit (s.reg i)).advance 2) := by
  simp only [execPrn, BitVec.setWidth_eq]

theorem execPush_eq (a : Byte) (s : State) :
    execPush a s = withReg a s fun i =>
      match s.push (s.reg i) with
      | none => raised .stackOverflow s.sp s
      | some u => .next (u.advance 2) := by
  refine congrArg (withReg a s) (funext fun i => ?_)
  cases h : s.push (s.reg i) <;> simp only [BitVec.setWidth_eq, h]

theorem execPop_eq (a : Byte) (s : State) :
    execPop a s = withReg a s fun i =>
      match s.pop with
      | none => raised .stackUnderflow s.sp s
      | some (v, u) => .next ((u.setReg i v).advance 2) := by
  refine congrArg (withReg a s) (funext fun i => ?_)
  cases h : s.pop <;> simp only [BitVec.setWidth_eq]

theorem execCall_eq (a : Byte) (s : State) :
    execCall a s = withReg a s fun i =>
      if s.pc.toNat + 2 > 255 then raised .returnAddress (BitVec.ofNat 9 (s.pc.toNat + 2)) s
      else
        match s.push (BitVec.ofNat 8 (s.pc.toNat + 2)) with
        | none => raised .stackOverflow s.sp s
        | some u => .next (u.setPc (s.reg i)) := by
  refine congrArg (withReg a s) (funext fun i => ?_)
  cases h : s.push (BitVec.ofNat 8 (s.pc.toNat + 2)) <;> simp only [BitVec.setWidth_eq]

theorem execRet_eq (s : State) :
    execRet s =
      match s.pop with
      | none => raised .stackUnderflow s.sp s
      | some (t, u) => .next (u.setPc t) := by
  cases h : s.pop <;> simp only [execRet, BitVec.setWidth_eq, h]

/-! ### The two-operand ALU instructions -/

theorem aluTwo_of_lt (op : Byte → Byte → AluOp) (a b : Byte) (s : State) (ha : a.toNat < 8) (hb : b.toNat < 8) :
    aluTwo op a b s =
      aluCommit ⟨a.toNat, ha⟩ b 3 s (alu (op (s.reg ⟨a.toNat, ha⟩) (s.reg ⟨b.toNat, hb⟩))) := by
  simp [aluTwo, withReg_of_lt _ _ _ ha, withReg_of_lt _ _ _ hb]

/-- What a two-operand ALU instruction can do. -/
theorem aluTwo_next {op : Byte → Byte → AluOp} {a b : Byte} {s t : State} (h : aluTwo op a b s = .next t) :
    (8 ≤ a.toNat ∧ t = s.raise .registerIndex (Ptr.ofByte a)) ∨
    (a.toNat < 8 ∧ 8 ≤ b.toNat ∧ t = s.raise .registerIndex (Ptr.ofByte b)) ∨
    ∃ (ha : a.toNat < 8) (hb : b.toNat < 8),
      (alu (op (s.reg ⟨a.toNat, ha⟩) (s.reg ⟨b.toNat, hb⟩)) = .divideByZero ∧
        t = s.raise .divideByZero (Ptr.ofByte b)) ∨
      (∃ v, alu (op (s.reg ⟨a.toNat, ha⟩) (s.reg ⟨b.toNat, hb⟩)) = .result v ∧
        t = (s.setReg ⟨a.toNat, ha⟩ v).advance 3) ∨
      ∃ f, alu (op (s.reg ⟨a.toNat, ha⟩) (s.reg ⟨b.toNat, hb⟩)) = .flags f ∧ t = (s.setFlags f).advance 3 := by
  obtain ⟨ha, e⟩ | ⟨ha, h⟩ := withReg_next h
  · exact .inl ⟨ha, e⟩
  obtain ⟨hb, e⟩ | ⟨hb, h⟩ := withReg_next h
  · exact .inr (.inl ⟨ha, hb, e⟩)
  refine .inr (.inr ⟨ha, hb, ?_⟩)
  cases ho : alu (op (s.reg ⟨a.toNat, ha⟩) (s.reg ⟨b.toNat, hb⟩)) with
  | result v => exact .inr (.inl ⟨v, rfl, by simpa [ho, aluCommit] using h.symm⟩)
  | flags f => exact .inr (.inr ⟨f, rfl, by simpa [ho, aluCommit] using h.symm⟩)
  | divideByZero => exact .inl ⟨rfl, by simpa [ho, aluCommit, raised] using h.symm⟩

/-! ### Every instruction -/

/-- `i` completes without a fault from `s` in `t`: one rule for each instruction. -/
inductive Completes : Instr → State → State → Prop where
  | hlt {s} : Completes .hlt s (s.halt.advance 1)
  | ldi {s a b} (ha : a.toNat < 8) : Completes (.ldi a b) s ((s.setReg ⟨a.toNat, ha⟩ b).advance 3)
  | prn {s a} (ha : a.toNat < 8) : Completes (.prn a) s ((s.emit (s.reg ⟨a.toNat, ha⟩)).advance 2)
  | push {s a} (ha : a.toNat < 8) (h0 : 0 < s.sp.toNat) (h1 : s.sp.toNat ≤ 256) :
      Completes (.push a) s
        (State.advance
          { s with sp := s.sp - 1, mem := Memory.write s.mem (s.sp.toNat - 1) (s.reg ⟨a.toNat, ha⟩) } 2)
  | pop {s a} (ha : a.toNat < 8) (h1 : s.sp.toNat < 256) :
      Completes (.pop a) s
        ((State.setReg { s with sp := s.sp + 1 } ⟨a.toNat, ha⟩ (Memory.read s.mem s.sp.toNat)).advance 2)
  | call {s a} (ha : a.toNat < 8) (hp : s.pc.toNat + 2 ≤ 255) (h0 : 0 < s.sp.toNat) (h1 : s.sp.toNat ≤ 256) :
      Completes (.call a) s
        (State.setPc
          { s with
            sp := s.sp - 1, mem := Memory.write s.mem (s.sp.toNat - 1) (BitVec.ofNat 8 (s.pc.toNat + 2)) }
          (s.reg ⟨a.toNat, ha⟩))
  | ret {s} (h1 : s.sp.toNat < 256) :
      Completes .ret s (State.setPc { s with sp := s.sp + 1 } (Memory.read s.mem s.sp.toNat))
  | jmp {s a} (ha : a.toNat < 8) : Completes (.jmp a) s (s.setPc (s.reg ⟨a.toNat, ha⟩))
  | jeqTaken {s a} (ha : a.toNat < 8) (he : s.flags.e = true) :
      Completes (.jeq a) s (s.setPc (s.reg ⟨a.toNat, ha⟩))
  | jeqSkip {s a} (ha : a.toNat < 8) (he : s.flags.e = false) : Completes (.jeq a) s (s.advance 2)
  | jneTaken {s a} (ha : a.toNat < 8) (he : s.flags.e = false) :
      Completes (.jne a) s (s.setPc (s.reg ⟨a.toNat, ha⟩))
  | jneSkip {s a} (ha : a.toNat < 8) (he : s.flags.e = true) : Completes (.jne a) s (s.advance 2)
  | not {s a} (ha : a.toNat < 8) :
      Completes (.not a) s ((s.setReg ⟨a.toNat, ha⟩ (~~~ s.reg ⟨a.toNat, ha⟩)).advance 2)
  | add {s a b} (ha : a.toNat < 8) (hb : b.toNat < 8) :
      Completes (.add a b) s
        ((s.setReg ⟨a.toNat, ha⟩ (s.reg ⟨a.toNat, ha⟩ + s.reg ⟨b.toNat, hb⟩)).advance 3)
  | sub {s a b} (ha : a.toNat < 8) (hb : b.toNat < 8) :
      Completes (.sub a b) s
        ((s.setReg ⟨a.toNat, ha⟩ (s.reg ⟨a.toNat, ha⟩ - s.reg ⟨b.toNat, hb⟩)).advance 3)
  | mul {s a b} (ha : a.toNat < 8) (hb : b.toNat < 8) :
      Completes (.mul a b) s
        ((s.setReg ⟨a.toNat, ha⟩ (s.reg ⟨a.toNat, ha⟩ * s.reg ⟨b.toNat, hb⟩)).advance 3)
  | div {s a b} (ha : a.toNat < 8) (hb : b.toNat < 8) (h0 : s.reg ⟨b.toNat, hb⟩ ≠ 0) :
      Completes (.div a b) s
        ((s.setReg ⟨a.toNat, ha⟩ (s.reg ⟨a.toNat, ha⟩ / s.reg ⟨b.toNat, hb⟩)).advance 3)
  | mod {s a b} (ha : a.toNat < 8) (hb : b.toNat < 8) (h0 : s.reg ⟨b.toNat, hb⟩ ≠ 0) :
      Completes (.mod a b) s
        ((s.setReg ⟨a.toNat, ha⟩ (s.reg ⟨a.toNat, ha⟩ % s.reg ⟨b.toNat, hb⟩)).advance 3)
  | cmp {s a b} (ha : a.toNat < 8) (hb : b.toNat < 8) :
      Completes (.cmp a b) s
        ((s.setFlags (compareFlags (s.reg ⟨a.toNat, ha⟩) (s.reg ⟨b.toNat, hb⟩))).advance 3)
  | and {s a b} (ha : a.toNat < 8) (hb : b.toNat < 8) :
      Completes (.and a b) s
        ((s.setReg ⟨a.toNat, ha⟩ (s.reg ⟨a.toNat, ha⟩ &&& s.reg ⟨b.toNat, hb⟩)).advance 3)
  | or {s a b} (ha : a.toNat < 8) (hb : b.toNat < 8) :
      Completes (.or a b) s
        ((s.setReg ⟨a.toNat, ha⟩ (s.reg ⟨a.toNat, ha⟩ ||| s.reg ⟨b.toNat, hb⟩)).advance 3)
  | xor {s a b} (ha : a.toNat < 8) (hb : b.toNat < 8) :
      Completes (.xor a b) s
        ((s.setReg ⟨a.toNat, ha⟩ (s.reg ⟨a.toNat, ha⟩ ^^^ s.reg ⟨b.toNat, hb⟩)).advance 3)
  | shl {s a b} (ha : a.toNat < 8) (hb : b.toNat < 8) :
      Completes (.shl a b) s
        ((s.setReg ⟨a.toNat, ha⟩ (s.reg ⟨a.toNat, ha⟩ <<< (s.reg ⟨b.toNat, hb⟩).toNat)).advance 3)
  | shr {s a b} (ha : a.toNat < 8) (hb : b.toNat < 8) :
      Completes (.shr a b) s
        ((s.setReg ⟨a.toNat, ha⟩ (s.reg ⟨a.toNat, ha⟩ >>> (s.reg ⟨b.toNat, hb⟩).toNat)).advance 3)

/-- Executing `i` from `s` raises cause `c` with value `v`: one rule for each fault an instruction can raise in phases
V and E, with the checks that come before it passed (R187). -/
inductive Raises : Instr → State → Cause → Ptr → Prop where
  | registerIndex {i s a} (h : i.regOperands.find? (fun x => decide (8 ≤ x.toNat)) = some a) :
      Raises i s .registerIndex (Ptr.ofByte a)
  | div {s a b} (ha : a.toNat < 8) (hb : b.toNat < 8) (h0 : s.reg ⟨b.toNat, hb⟩ = 0) :
      Raises (.div a b) s .divideByZero (Ptr.ofByte b)
  | mod {s a b} (ha : a.toNat < 8) (hb : b.toNat < 8) (h0 : s.reg ⟨b.toNat, hb⟩ = 0) :
      Raises (.mod a b) s .divideByZero (Ptr.ofByte b)
  | push {s a} (ha : a.toNat < 8) (h : s.sp.toNat = 0 ∨ 256 < s.sp.toNat) :
      Raises (.push a) s .stackOverflow s.sp
  | pop {s a} (ha : a.toNat < 8) (h : 256 ≤ s.sp.toNat) : Raises (.pop a) s .stackUnderflow s.sp
  | callAddress {s a} (ha : a.toNat < 8) (hp : 255 < s.pc.toNat + 2) :
      Raises (.call a) s .returnAddress (BitVec.ofNat 9 (s.pc.toNat + 2))
  | call {s a} (ha : a.toNat < 8) (hp : s.pc.toNat + 2 ≤ 255) (h : s.sp.toNat = 0 ∨ 256 < s.sp.toNat) :
      Raises (.call a) s .stackOverflow s.sp
  | ret {s} (h : 256 ≤ s.sp.toNat) : Raises .ret s .stackUnderflow s.sp

theorem Raises.cause_ne_none {i : Instr} {s : State} {c : Cause} {v : Ptr} (h : Raises i s c v) : c ≠ .none := by
  cases h <;> simp

/-- A two-operand ALU instruction raises a fault or completes, by its inversion and what its result is. -/
theorem aluTwo_cases {op : Byte → Byte → AluOp} {a b : Byte} {s t : State} {i : Instr}
    (hops : i.regOperands = [a, b]) (h : aluTwo op a b s = .next t)
    (hz : ∀ (_ : a.toNat < 8) (hb : b.toNat < 8) (va : Byte),
      alu (op va (s.reg ⟨b.toNat, hb⟩)) = .divideByZero → Raises i s .divideByZero (Ptr.ofByte b))
    (hr : ∀ (ha : a.toNat < 8) (hb : b.toNat < 8) (v : Byte),
      alu (op (s.reg ⟨a.toNat, ha⟩) (s.reg ⟨b.toNat, hb⟩)) = .result v →
        Completes i s ((s.setReg ⟨a.toNat, ha⟩ v).advance 3))
    (hf : ∀ (ha : a.toNat < 8) (hb : b.toNat < 8) (f : Flags),
      alu (op (s.reg ⟨a.toNat, ha⟩) (s.reg ⟨b.toNat, hb⟩)) = .flags f →
        Completes i s ((s.setFlags f).advance 3)) :
    (∃ c v, Raises i s c v ∧ t = s.raise c v) ∨ Completes i s t := by
  obtain ⟨ha, rfl⟩ | ⟨ha, hb, rfl⟩ | ⟨ha, hb, ⟨e, rfl⟩ | ⟨v, e, rfl⟩ | ⟨f, e, rfl⟩⟩ := aluTwo_next h
  · exact .inl ⟨_, _, .registerIndex (by simp [hops, ha]), rfl⟩
  · exact .inl ⟨_, _, .registerIndex (by simp [hops, show ¬ 8 ≤ a.toNat by omega, hb]), rfl⟩
  · exact .inl ⟨_, _, hz ha hb _ e, rfl⟩
  · exact .inr (hr ha hb v e)
  · exact .inr (hf ha hb f e)

/-- What executing an instruction can do: it raises a fault, which changes nothing but `status` and the fault record,
or it completes. -/
theorem exec_cases {i : Instr} {s t : State} (h : exec i s = .next t) :
    (∃ c v, Raises i s c v ∧ t = s.raise c v) ∨ Completes i s t := by
  cases i with
  | hlt => simp only [exec, execHlt, Host.Outcome.next.injEq] at h; subst h; exact .inr .hlt
  | ret =>
    simp only [exec, execRet] at h
    split at h
    · rename_i hp
      simp only [raised, Host.Outcome.next.injEq] at h
      exact .inl ⟨_, _, .ret (State.pop_none hp), h.symm⟩
    · rename_i v u hp
      obtain ⟨h1, rfl, rfl⟩ := State.pop_some hp
      simp only [Host.Outcome.next.injEq] at h; subst h
      exact .inr (.ret h1)
  | push a =>
    obtain ⟨ha, rfl⟩ | ⟨ha, h⟩ := withReg_next h
    · exact .inl ⟨_, _, .registerIndex (by simp [Instr.regOperands, ha]), rfl⟩
    split at h
    · rename_i hp
      simp only [raised, Host.Outcome.next.injEq] at h
      exact .inl ⟨_, _, .push ha (State.push_none hp), h.symm⟩
    · rename_i u hp
      obtain ⟨h0, h1, rfl⟩ := State.push_some hp
      simp only [Host.Outcome.next.injEq] at h; subst h
      exact .inr (.push ha h0 h1)
  | pop a =>
    obtain ⟨ha, rfl⟩ | ⟨ha, h⟩ := withReg_next h
    · exact .inl ⟨_, _, .registerIndex (by simp [Instr.regOperands, ha]), rfl⟩
    split at h
    · rename_i hp
      simp only [raised, Host.Outcome.next.injEq] at h
      exact .inl ⟨_, _, .pop ha (State.pop_none hp), h.symm⟩
    · rename_i v u hp
      obtain ⟨h1, rfl, rfl⟩ := State.pop_some hp
      simp only [Host.Outcome.next.injEq] at h; subst h
      exact .inr (.pop ha h1)
  | prn a =>
    obtain ⟨ha, rfl⟩ | ⟨ha, h⟩ := withReg_next h
    · exact .inl ⟨_, _, .registerIndex (by simp [Instr.regOperands, ha]), rfl⟩
    cases h; exact .inr (.prn ha)
  | call a =>
    obtain ⟨ha, rfl⟩ | ⟨ha, h⟩ := withReg_next h
    · exact .inl ⟨_, _, .registerIndex (by simp [Instr.regOperands, ha]), rfl⟩
    split_ifs at h with hp
    · simp only [raised, Host.Outcome.next.injEq] at h
      exact .inl ⟨_, _, .callAddress ha (by omega), h.symm⟩
    split at h
    · rename_i hq
      simp only [raised, Host.Outcome.next.injEq] at h
      exact .inl ⟨_, _, .call ha (by omega) (State.push_none hq), h.symm⟩
    · rename_i u hq
      obtain ⟨h0, h1, rfl⟩ := State.push_some hq
      simp only [Host.Outcome.next.injEq] at h; subst h
      exact .inr (.call ha (by omega) h0 h1)
  | jmp a =>
    obtain ⟨ha, rfl⟩ | ⟨ha, h⟩ := withReg_next h
    · exact .inl ⟨_, _, .registerIndex (by simp [Instr.regOperands, ha]), rfl⟩
    cases h; exact .inr (.jmp ha)
  | jeq a =>
    obtain ⟨ha, rfl⟩ | ⟨ha, h⟩ := withReg_next h
    · exact .inl ⟨_, _, .registerIndex (by simp [Instr.regOperands, ha]), rfl⟩
    cases he : s.flags.e <;> simp only [he] at h <;> cases h
    · exact .inr (.jeqSkip ha he)
    · exact .inr (.jeqTaken ha he)
  | jne a =>
    obtain ⟨ha, rfl⟩ | ⟨ha, h⟩ := withReg_next h
    · exact .inl ⟨_, _, .registerIndex (by simp [Instr.regOperands, ha]), rfl⟩
    cases he : s.flags.e <;> simp only [he] at h <;> cases h
    · exact .inr (.jneTaken ha he)
    · exact .inr (.jneSkip ha he)
  | not a =>
    obtain ⟨ha, rfl⟩ | ⟨ha, h⟩ := withReg_next h
    · exact .inl ⟨_, _, .registerIndex (by simp [Instr.regOperands, ha]), rfl⟩
    cases h; exact .inr (.not ha)
  | ldi a b =>
    obtain ⟨ha, rfl⟩ | ⟨ha, h⟩ := withReg_next h
    · exact .inl ⟨_, _, .registerIndex (by simp [Instr.regOperands, ha]), rfl⟩
    cases h; exact .inr (.ldi ha)
  | add a b =>
    exact aluTwo_cases rfl h (by simp [alu]) (by rintro ha hb v ⟨⟩; exact .add ha hb) (by simp [alu])
  | sub a b =>
    exact aluTwo_cases rfl h (by simp [alu]) (by rintro ha hb v ⟨⟩; exact .sub ha hb) (by simp [alu])
  | mul a b =>
    exact aluTwo_cases rfl h (by simp [alu]) (by rintro ha hb v ⟨⟩; exact .mul ha hb) (by simp [alu])
  | div a b =>
    refine aluTwo_cases rfl h (fun ha hb va e => .div ha hb (by simpa [alu] using e)) ?_
      (by intro _ _ _ e; simp only [alu] at e; split_ifs at e)
    intro ha hb v e
    simp only [alu] at e
    split_ifs at e with h0
    cases e; exact .div ha hb h0
  | mod a b =>
    refine aluTwo_cases rfl h (fun ha hb va e => .mod ha hb (by simpa [alu] using e)) ?_
      (by intro _ _ _ e; simp only [alu] at e; split_ifs at e)
    intro ha hb v e
    simp only [alu] at e
    split_ifs at e with h0
    cases e; exact .mod ha hb h0
  | cmp a b =>
    exact aluTwo_cases rfl h (by simp [alu]) (by simp [alu]) (by rintro ha hb v ⟨⟩; exact .cmp ha hb)
  | and a b =>
    exact aluTwo_cases rfl h (by simp [alu]) (by rintro ha hb v ⟨⟩; exact .and ha hb) (by simp [alu])
  | or a b =>
    exact aluTwo_cases rfl h (by simp [alu]) (by rintro ha hb v ⟨⟩; exact .or ha hb) (by simp [alu])
  | xor a b =>
    exact aluTwo_cases rfl h (by simp [alu]) (by rintro ha hb v ⟨⟩; exact .xor ha hb) (by simp [alu])
  | shl a b =>
    exact aluTwo_cases rfl h (by simp [alu]) (by rintro ha hb v ⟨⟩; exact .shl ha hb) (by simp [alu])
  | shr a b =>
    exact aluTwo_cases rfl h (by simp [alu]) (by rintro ha hb v ⟨⟩; exact .shr ha hb) (by simp [alu])

/-- A fault that an instruction raises is what `exec` answers. -/
theorem exec_of_raises {i : Instr} {s : State} {c : Cause} {v : Ptr} (h : Raises i s c v) :
    exec i s = .next (s.raise c v) := by
  cases h
  case registerIndex a h =>
    cases i <;> simp only [Instr.regOperands, List.find?_cons, List.find?_nil] at h
    case hlt => cases h
    case ret => cases h
    all_goals
      split at h
      · rename_i hx
        cases h
        exact withReg_of_ge _ _ _ (by simpa using hx)
      · first
          | cases h
          | rename_i hx
            split at h
            · rename_i hy
              cases h
              exact (withReg_of_lt _ _ _ (by simpa using hx)).trans (withReg_of_ge _ _ _ (by simpa using hy))
            · cases h
  case div ha hb h0 => exact (aluTwo_of_lt _ _ _ _ ha hb).trans (by simp only [alu, if_pos h0]; rfl)
  case mod ha hb h0 => exact (aluTwo_of_lt _ _ _ _ ha hb).trans (by simp only [alu, if_pos h0]; rfl)
  case push ha h =>
    exact (withReg_of_lt _ _ _ ha).trans (by rw [State.push_eq, if_neg (by omega)]; rfl)
  case pop ha h => exact (withReg_of_lt _ _ _ ha).trans (by rw [State.pop_eq, if_neg (by omega)]; rfl)
  case callAddress ha hp => exact (withReg_of_lt _ _ _ ha).trans (if_pos hp)
  case call ha hp h =>
    exact (withReg_of_lt _ _ _ ha).trans
      (by rw [if_neg (by omega), State.push_eq, if_neg (by omega)]; rfl)
  case ret h => simp only [exec, execRet, State.pop_eq, if_neg (show ¬ s.sp.toNat < 256 by omega)]; rfl

/-- An instruction that completes is what `exec` answers. -/
theorem exec_of_completes {i : Instr} {s t : State} (h : Completes i s t) : exec i s = .next t := by
  cases h
  case hlt => rfl
  case ret h1 => simp only [exec, execRet, State.pop_ok _ h1]
  case push ha h0 h1 => rw [exec, execPush_eq, withReg_of_lt _ _ _ ha, State.push_ok _ _ h0 h1]
  case pop ha h1 => rw [exec, execPop_eq, withReg_of_lt _ _ _ ha, State.pop_ok _ h1]
  case call ha hp h0 h1 =>
    exact (withReg_of_lt _ _ _ ha).trans (by rw [if_neg (by omega), State.push_ok _ _ h0 h1])
  case prn ha => exact withReg_of_lt _ _ _ ha
  case ldi ha => exact withReg_of_lt _ _ _ ha
  case jmp ha => exact withReg_of_lt _ _ _ ha
  case jeqTaken ha he => exact (withReg_of_lt _ _ _ ha).trans (by rw [he]; rfl)
  case jeqSkip ha he => exact (withReg_of_lt _ _ _ ha).trans (by rw [he]; rfl)
  case jneTaken ha he => exact (withReg_of_lt _ _ _ ha).trans (by rw [he]; rfl)
  case jneSkip ha he => exact (withReg_of_lt _ _ _ ha).trans (by rw [he]; rfl)
  case not ha => exact withReg_of_lt _ _ _ ha
  case div ha hb h0 => exact (aluTwo_of_lt _ _ _ _ ha hb).trans (by simp only [alu, if_neg h0]; rfl)
  case mod ha hb h0 => exact (aluTwo_of_lt _ _ _ _ ha hb).trans (by simp only [alu, if_neg h0]; rfl)
  all_goals exact aluTwo_of_lt _ _ _ _ (by assumption) (by assumption)

/-! ### The step -/

/-- What a step can do. -/
theorem stepWith_cases {p : Params} {s t : State} (h : stepWith p s = .next t) :
    (s.status ≠ .running ∧ t = s) ∨
    (s.status = .running ∧ ∃ k, s.fetch p = .error (.noByte k) ∧
      t = s.raise .memoryBounds (BitVec.ofNat 9 (s.pc.toNat + k))) ∨
    (s.status = .running ∧ ∃ op, s.fetch p = .error (.unknownOpcode op) ∧
      t = s.raise .unknownOpcode (Ptr.ofByte op)) ∨
    (s.status = .running ∧ ∃ i, s.fetch p = .ok i ∧ exec i s = .next t) := by
  simp only [stepWith, State.stepBy] at h
  split at h
  · exact .inl ⟨by simp_all, by cases h; rfl⟩
  · exact .inl ⟨by simp_all, by cases h; rfl⟩
  · rename_i hs
    split at h
    · rename_i r hf
      cases r with
      | noByte k => exact .inr (.inl ⟨hs, k, hf, by cases h; rfl⟩)
      | unknownOpcode op => exact .inr (.inr (.inl ⟨hs, op, hf, by cases h; rfl⟩))
    · rename_i i hf
      exact .inr (.inr (.inr ⟨hs, i, hf, h⟩))

theorem stepWith_ok {p : Params} {s : State} {i : Instr} (hs : s.status = .running) (hf : s.fetch p = .ok i) :
    stepWith p s = exec i s := by
  simp [stepWith, State.stepBy, hs, hf]

/-- A missing byte `k` of the instruction raises `MEMORY_BOUNDS` with its address. -/
theorem stepWith_noByte {p : Params} {s : State} {k : Nat} (hs : s.status = .running)
    (hf : s.fetch p = .error (.noByte k)) :
    stepWith p s = .next (s.raise .memoryBounds (BitVec.ofNat 9 (s.pc.toNat + k))) := by
  simp [stepWith, State.stepBy, hs, hf, fetchFault, raised]

/-- An opcode byte that decodes as nothing raises `UNKNOWN_OPCODE` with the byte. -/
theorem stepWith_unknownOpcode {p : Params} {s : State} {op : Byte} (hs : s.status = .running)
    (hf : s.fetch p = .error (.unknownOpcode op)) :
    stepWith p s = .next (s.raise .unknownOpcode (Ptr.ofByte op)) := by
  simp [stepWith, State.stepBy, hs, hf, fetchFault, raised]

/-- A stopped CORE stays as it is. -/
theorem stepWith_of_stopped {p : Params} {s : State} (hs : s.status = .halted ∨ s.status = .faulted) :
    stepWith p s = .next s := by
  rcases hs with hs | hs <;> simp [stepWith, State.stepBy, hs]

/-- A fetched instruction lies wholly in memory. -/
theorem State.fetch_ok_le {p : Params} {s : State} {i : Instr} (h : s.fetch p = .ok i) :
    s.pc.toNat + i.width ≤ 256 := by
  have hw : 0 < i.width ∧ i.width = (encode p i).length := by
    cases i <;> simp [Instr.width, Mnemonic.width, Format.width, Mnemonic.format, Instr.mnemonic, encode,
      Instr.operands]
  have hb := decodeFrom_ok_bytes h (i.width - 1) (by omega)
  rw [List.getElem?_eq_getElem (by omega)] at hb
  have := (State.memRead_some hb).1
  omega

end Sys2Proof.Machine
end

