-- ==== Sys2Proof/Laws/PerInstr.lean ====
section
/-! SUPPORT. Facts about the instruction as syntax, one lemma for each constructor. -/

/-- The encoding of an instruction is as long as its row of the opcode map says, begins with its row's opcode byte, and
holds every register operand (R60, R62). -/
def Sys2Proof.Laws.EncodingShape.Statement (i : Sys2Proof.Instr) : Prop :=
  ∀ p : Sys2Proof.Params,
    (Sys2Proof.encode p i).length = i.width ∧
    (Sys2Proof.encode p i).head? = some (p.opcodeMap i.mnemonic) ∧
    ∀ a ∈ i.regOperands, a ∈ (Sys2Proof.encode p i).tail

namespace Sys2Proof.Laws.EncodingShape

theorem hlt : Statement .hlt := fun _ => ⟨rfl, rfl, fun _ h => h⟩

theorem ret : Statement .ret := fun _ => ⟨rfl, rfl, fun _ h => h⟩

theorem push (a : Byte) : Statement (.push a) := fun _ => ⟨rfl, rfl, fun _ h => h⟩

theorem pop (a : Byte) : Statement (.pop a) := fun _ => ⟨rfl, rfl, fun _ h => h⟩

theorem prn (a : Byte) : Statement (.prn a) := fun _ => ⟨rfl, rfl, fun _ h => h⟩

theorem call (a : Byte) : Statement (.call a) := fun _ => ⟨rfl, rfl, fun _ h => h⟩

theorem jmp (a : Byte) : Statement (.jmp a) := fun _ => ⟨rfl, rfl, fun _ h => h⟩

theorem jeq (a : Byte) : Statement (.jeq a) := fun _ => ⟨rfl, rfl, fun _ h => h⟩

theorem jne (a : Byte) : Statement (.jne a) := fun _ => ⟨rfl, rfl, fun _ h => h⟩

theorem not (a : Byte) : Statement (.not a) := fun _ => ⟨rfl, rfl, fun _ h => h⟩

theorem ldi (a b : Byte) : Statement (.ldi a b) := fun _ => ⟨rfl, rfl, fun _ h => List.mem_append_left [b] h⟩

theorem add (a b : Byte) : Statement (.add a b) := fun _ => ⟨rfl, rfl, fun _ h => h⟩

theorem sub (a b : Byte) : Statement (.sub a b) := fun _ => ⟨rfl, rfl, fun _ h => h⟩

theorem mul (a b : Byte) : Statement (.mul a b) := fun _ => ⟨rfl, rfl, fun _ h => h⟩

theorem div (a b : Byte) : Statement (.div a b) := fun _ => ⟨rfl, rfl, fun _ h => h⟩

theorem mod (a b : Byte) : Statement (.mod a b) := fun _ => ⟨rfl, rfl, fun _ h => h⟩

theorem cmp (a b : Byte) : Statement (.cmp a b) := fun _ => ⟨rfl, rfl, fun _ h => h⟩

theorem and (a b : Byte) : Statement (.and a b) := fun _ => ⟨rfl, rfl, fun _ h => h⟩

theorem or (a b : Byte) : Statement (.or a b) := fun _ => ⟨rfl, rfl, fun _ h => h⟩

theorem xor (a b : Byte) : Statement (.xor a b) := fun _ => ⟨rfl, rfl, fun _ h => h⟩

theorem shl (a b : Byte) : Statement (.shl a b) := fun _ => ⟨rfl, rfl, fun _ h => h⟩

theorem shr (a b : Byte) : Statement (.shr a b) := fun _ => ⟨rfl, rfl, fun _ h => h⟩

end Sys2Proof.Laws.EncodingShape
end

