-- ==== Sys2Proof/Laws/Run.lean ====
section
/-! SUPPORT. Runs: the steps of a run put together, and the output, which a run only appends to. -/

namespace Sys2Proof.Machine

/-- `j + k` steps are `j` steps and then `k`. -/
theorem runWith_add {p : Params} {j k : Nat} {s t : State} (h : runWith p j s = .next t) :
    runWith p (j + k) s = runWith p k t := by
  induction j generalizing s with
  | zero => cases h; rw [Nat.zero_add]
  | succ j ih =>
    rw [Nat.succ_add]
    cases hu : stepWith p s with
    | next u =>
      simp only [runWith, hu] at h ⊢
      exact ih h
    | fault r => simp only [runWith, hu, reduceCtorEq] at h
    | refused r => simp only [runWith, hu, reduceCtorEq] at h

/-- A state that a step leaves as it is stays so. -/
theorem runWith_of_fixed {p : Params} {s : State} (h : stepWith p s = .next s) (k : Nat) : runWith p k s = .next s := by
  induction k with
  | zero => rfl
  | succ k ih => simp only [runWith, h, ih]

theorem exec_output_prefix {i : Instr} {s t : State} (h : exec i s = .next t) : s.output <+: t.output := by
  obtain ⟨c, v, -, rfl⟩ | h := exec_cases h
  · exact List.prefix_refl _
  · cases h with
    | prn => exact List.prefix_append _ _
    | _ => exact List.prefix_refl _

theorem stepWith_output_prefix {p : Params} {s t : State} (h : stepWith p s = .next t) : s.output <+: t.output := by
  obtain ⟨-, rfl⟩ | ⟨-, _, -, rfl⟩ | ⟨-, _, -, rfl⟩ | ⟨-, i, -, h⟩ := stepWith_cases h
  iterate 3 exact List.prefix_refl _
  exact exec_output_prefix h

theorem runWith_output_prefix {p : Params} {k : Nat} {s t : State} (h : runWith p k s = .next t) :
    s.output <+: t.output := by
  induction k generalizing s with
  | zero => cases h; exact List.prefix_refl _
  | succ k ih =>
    cases hu : stepWith p s with
    | next u =>
      simp only [runWith, hu] at h
      exact (stepWith_output_prefix hu).trans (ih h)
    | fault r => simp only [runWith, hu, reduceCtorEq] at h
    | refused r => simp only [runWith, hu, reduceCtorEq] at h

/-- The output after more steps begins with the output after fewer. -/
theorem runWith_output_mono {p : Params} {j k : Nat} {s t u : State} (hjk : j ≤ k) (hj : runWith p j s = .next t)
    (hk : runWith p k s = .next u) : t.output <+: u.output := by
  obtain ⟨d, rfl⟩ := Nat.exists_eq_add_of_le hjk
  exact runWith_output_prefix (runWith_add hj ▸ hk)

end Sys2Proof.Machine
end

