-- ==== Sys2Proof/Laws/Sized.lean ====
section
/-! SUPPORT. The machine of R9's parameter table is, at this hardware's sizes, the machine the statements are about. -/

namespace Sys2Proof.Machine

theorem execAt_eq (i : Instr) (s : State) : execAt i s = exec i s := by cases i <;> rfl

/-- A machine whose sizes are this hardware's steps as `stepWith`, whatever the rest of its table. -/
theorem MachineParams.step_eq (p : Params) (s : State) : MachineParams.step { toParams := p } s = stepWith p s := by
  show State.stepBy execAt p s = State.stepBy exec p s
  rw [show (execAt : Instr → State → Answer 256 8 8 9 9) = exec from funext fun i => funext (execAt_eq i)]

theorem MachineParams.reset_eq (p : Params) : MachineParams.reset { toParams := p } = State.reset := rfl

theorem MachineParams.boot_eq (p : Params) (supplied : Option (List Byte)) :
    MachineParams.boot { toParams := p } supplied = Machine.boot p supplied := rfl

end Sys2Proof.Machine
end

