-- ==== Sys2Proof/Tests/Slice0.lean ====
section
/-! SUPPORT. Tests. Every expected value is written out from the spec: the bytes from R60, R62 and
spec/95_test_vectors.md, the results from the vectors V1 to V102 of that file. After them, for every statement of
Certificates/Slice0/Obligations.lean that has hypotheses, a concrete case that meets them together, at the ends of their
ranges. -/

namespace Sys2Proof.Tests

open Sys2Proof Sys2Proof.Machine

/-- The default map with `DECODE_SUB_DIV` = true (R9). -/
def withSubDiv : Params := ⟨defaultOpcodeMap, true, []⟩

/-- After reset, with bytes placed from `k` on and `pc` at `k`. -/
def startAt (k : Nat) (bytes : List Byte) : State := { State.reset.placeBytes k bytes with pc := BitVec.ofNat 9 k }

/-- After reset, with bytes placed from address 0. -/
def start (bytes : List Byte) : State := startAt 0 bytes

/-- The state one step of this hardware leads to (the state itself where it would stop, which no step does). -/
def after (s : State) : State :=
  match step s with
  | .next t => t
  | .fault _ | .refused _ => s

/-- The same with SUB and DIV decoded. -/
def afterSubDiv (s : State) : State :=
  match stepWith withSubDiv s with
  | .next t => t
  | .fault _ | .refused _ => s

/-- What a fault leaves, beside the rest of the state: `status`, cause, `fault.pc`, `fault.value`. -/
def stop (s : State) : Status × Cause × Nat × Nat := (s.status, s.fault.cause, s.fault.pc.toNat, s.fault.value.toNat)

/-- A fault changed nothing but `status` and the fault record (R185). -/
def onlyFault (s t : State) : Bool := decide ({ t with status := s.status, fault := s.fault } = s)

/-- The three flags. -/
def efl (s : State) : Bool × Bool × Bool := (s.flags.e, s.flags.l, s.flags.g)

/-- An outcome is the next state `t`, as a test that can be decided. -/
def answers (o : Host.Outcome State Fault Refusal) (t : State) : Bool :=
  match o with
  | .next u => decide (u = t)
  | .fault _ | .refused _ => false

theorem next_of_answers {o : Host.Outcome State Fault Refusal} {t : State} (h : answers o t = true) : o = .next t := by
  cases o with
  | next u => rw [of_decide_eq_true h]
  | fault r => cases h
  | refused r => cases h

/-! ### Well-formed instructions: an ill-formed term for each check (R64, R88) -/

theorem test_wellFormed_a_one_operand : (Instr.push 8).wellFormed = false ∧ (Instr.push 7).wellFormed = true := by decide

theorem test_wellFormed_a_two_operands :
    (Instr.add 8 0).wellFormed = false ∧ (Instr.ldi 255 0).wellFormed = false := by decide

theorem test_wellFormed_b : (Instr.add 0 8).wellFormed = false ∧ (Instr.add 7 7).wellFormed = true := by decide

theorem test_wellFormed_immediate_is_no_register : (Instr.ldi 0 200).wellFormed = true := by decide

/-! ### Decoding: for each constructor its bytes, written out from R60 and R62 -/

theorem test_decode_hlt : decode Params.thisHardware [0b00000001] = .ok (.hlt, []) := rfl
theorem test_decode_ret : decode Params.thisHardware [0b00010001, 0x02] = .ok (.ret, [0x02]) := rfl
theorem test_decode_push : decode Params.thisHardware [0b01000101, 0x03] = .ok (.push 3, []) := rfl
theorem test_decode_pop : decode Params.thisHardware [0b01000110, 0x06] = .ok (.pop 6, []) := rfl
theorem test_decode_prn : decode Params.thisHardware [0b01000111, 0x05, 0x01] = .ok (.prn 5, [0x01]) := rfl
theorem test_decode_call : decode Params.thisHardware [0b01010000, 0x01] = .ok (.call 1, []) := rfl
theorem test_decode_jmp : decode Params.thisHardware [0b01010100, 0x02] = .ok (.jmp 2, []) := rfl
theorem test_decode_jeq : decode Params.thisHardware [0b01010101, 0x03] = .ok (.jeq 3, []) := rfl
theorem test_decode_jne : decode Params.thisHardware [0b01010110, 0x03] = .ok (.jne 3, []) := rfl
theorem test_decode_not : decode Params.thisHardware [0b01101001, 0x04] = .ok (.not 4, []) := rfl
theorem test_decode_ldi : decode Params.thisHardware [0b10000010, 0x07, 0xFF] = .ok (.ldi 7 0xFF, []) := rfl
theorem test_decode_add : decode Params.thisHardware [0b10100000, 0x00, 0x01] = .ok (.add 0 1, []) := rfl
theorem test_decode_sub : decode withSubDiv [0b10100001, 0x02, 0x03] = .ok (.sub 2 3, []) := rfl
theorem test_decode_mul : decode Params.thisHardware [0b10100010, 0x00, 0x01] = .ok (.mul 0 1, []) := rfl
theorem test_decode_div : decode withSubDiv [0b10100011, 0x00, 0x01] = .ok (.div 0 1, []) := rfl
theorem test_decode_mod : decode Params.thisHardware [0b10100100, 0x00, 0x01] = .ok (.mod 0 1, []) := rfl
theorem test_decode_cmp : decode Params.thisHardware [0b10100111, 0x05, 0x04] = .ok (.cmp 5 4, []) := rfl
theorem test_decode_and : decode Params.thisHardware [0b10101000, 0x00, 0x01] = .ok (.and 0 1, []) := rfl
theorem test_decode_or : decode Params.thisHardware [0b10101010, 0x00, 0x01] = .ok (.or 0 1, []) := rfl
theorem test_decode_xor : decode Params.thisHardware [0b10101011, 0x02, 0x01] = .ok (.xor 2 1, []) := rfl
theorem test_decode_shl : decode Params.thisHardware [0b10101100, 0x01, 0x02] = .ok (.shl 1 2, []) := rfl
theorem test_decode_shr : decode Params.thisHardware [0b10101101, 0x01, 0x00] = .ok (.shr 1 0, []) := rfl

/-- An operand byte that names no register decodes; the step that executes it faults (R64, R88). -/
theorem test_decode_keeps_whole_operand : decode Params.thisHardware [0x45, 0xFF] = .ok (.push 0xFF, []) := rfl

/-- R67: bytes of LS-8 instructions this hardware lacks, 0x00, and by default SUB's byte. -/
theorem test_decode_rejects_unknown :
    [0x00, 0x13, 0x48, 0x52, 0x57, 0x58, 0x59, 0x5A, 0x65, 0x66, 0x83, 0x84, 0xA1, 0xA3, 0xFF].all
      (fun op => (decodeOpcode Params.thisHardware op).isNone) = true := by decide

theorem test_decode_rejects_by_name :
    decode Params.thisHardware [0xA1, 0x00, 0x01] = .error (.unknownOpcode 0xA1) ∧
    decode Params.thisHardware [0x82, 0x00] = .error (.noByte 2) := ⟨rfl, rfl⟩

/-- The opcode table numbers the first byte in bits 7 to 0. -/
theorem test_decodeTableWord :
    decodeTableWord 24 0x080082 = some (.ldi 0 8) ∧ decodeTableWord 8 0x01 = some .hlt ∧
    decodeTableWord 24 0xA1 = none := ⟨rfl, rfl, rfl⟩

/-- R63: the two top bits of a default opcode byte count the operands, bit 5 marks the ALU, bit 4 the instructions that
assign `pc`. A law of the default map only. -/
theorem test_default_map_structure :
    Mnemonic.all.all (fun m =>
      let op := (defaultOpcodeMap m).toNat
      decide (op / 64 + 1 = m.width) &&
      (decide (op / 32 % 2 = 1) ==
        decide (m ∈ [Mnemonic.not, .add, .sub, .mul, .div, .mod, .cmp, .and, .or, .xor, .shl, .shr])) &&
      (decide (op / 16 % 2 = 1) == decide (m ∈ [Mnemonic.ret, .call, .jmp, .jeq, .jne]))) = true := by decide

/-! ### The step: reset, fetch, placing an instruction -/

theorem test_withFetchWord : after (State.reset.withFetchWord 24 0xFF0782) =
    { start [0x82, 0x07, 0xFF] with regs := State.reset.regs.set 7 0xFF, pc := 3 } := by decide

/-- V11, V13. -/
theorem test_unknown_opcode :
    stop (after State.reset) = (.faulted, .unknownOpcode, 0, 0) ∧
    stop (after (start [0xFF])) = (.faulted, .unknownOpcode, 0, 0xFF) := by decide

/-- V12. -/
theorem test_sub_byte_by_default : stop (after (start [0xA1, 0x00, 0x01])) = (.faulted, .unknownOpcode, 0, 0xA1) := by
  decide

/-- V14, V15, V16, V17. -/
theorem test_fetch_bounds :
    stop (after (startAt 256 [])) = (.faulted, .memoryBounds, 256, 256) ∧
    stop (after (startAt 254 [0x82, 0x00])) = (.faulted, .memoryBounds, 254, 256) ∧
    stop (after (startAt 255 [0x47])) = (.faulted, .memoryBounds, 255, 256) ∧
    stop (after (startAt 255 [0xFF])) = (.faulted, .unknownOpcode, 255, 255) := by decide

/-- V10. -/
theorem test_stopped : after { start [0x82, 0x00, 0x08] with status := .halted } =
    { start [0x82, 0x00, 0x08] with status := .halted } := by decide

/-! ### LDI, PRN, HLT -/

/-- V1, V2. -/
theorem test_ldi : (after (start [0x82, 0x00, 0x08])).regs[0] = 8 ∧ (after (start [0x82, 0x00, 0x08])).pc = 3 ∧
    (after (start [0x82, 0x07, 0xFF])).regs[7] = 0xFF := by decide

/-- V4, V5. -/
theorem test_ldi_operands :
    stop (after (start [0x82, 0x08, 0x01])) = (.faulted, .registerIndex, 0, 8) ∧
    onlyFault (start [0x82, 0x08, 0x01]) (after (start [0x82, 0x08, 0x01])) = true ∧
    (after (start [0x82, 0x00, 0xC8])).regs[0] = 0xC8 := by decide

/-- V7. -/
theorem test_prn : (after ((start [0x47, 0x05]).setReg 5 0xFF)).output = [0xFF] ∧
    (after ((start [0x47, 0x05]).setReg 5 0xFF)).pc = 2 := by decide

/-- V18. -/
theorem test_prn_at_top : (after (startAt 254 [0x47, 0x00])).output = [0] ∧
    (after (startAt 254 [0x47, 0x00])).pc = 256 ∧
    stop (after (after (startAt 254 [0x47, 0x00]))) = (.faulted, .memoryBounds, 256, 256) := by decide

/-- V9, V19. -/
theorem test_hlt : stop (after (start [0x01])) = (.halted, .none, 0, 0) ∧ (after (start [0x01])).pc = 1 ∧
    stop (after (startAt 255 [0x01])) = (.halted, .none, 0, 0) ∧ (after (startAt 255 [0x01])).pc = 256 := by decide

/-! ### ALU -/

/-- An ALU step `op R0,R1` on two values, with the flags E 0, L 1, G 0: `x[0]`, `x[1]`, `pc`, and the flags kept. -/
def aluStep (op va vb : Byte) : Byte × Byte × Nat × Bool :=
  let t := afterSubDiv ((((start [op, 0x00, 0x01]).setReg 0 va).setReg 1 vb).setFlags ⟨false, true, false⟩)
  (t.regs[0], t.regs[1], t.pc.toNat, decide (t.flags = ⟨false, true, false⟩))

/-- V21, V59. -/
theorem test_add : aluStep 0xA0 0xC8 0x64 = (0x2C, 0x64, 3, true) ∧
    (after ((start [0xA0, 0x00, 0x00]).setReg 0 0x81)).regs[0] = 2 := by decide

/-- V26, V27. -/
theorem test_sub : aluStep 0xA1 0x05 0x07 = (0xFE, 0x07, 3, true) ∧ aluStep 0xA1 0x00 0x01 = (0xFF, 0x01, 3, true) := by
  decide

/-- V29, V31. -/
theorem test_mul : aluStep 0xA2 0x08 0x09 = (0x48, 0x09, 3, true) ∧ aluStep 0xA2 0xFF 0xFF = (0x01, 0xFF, 3, true) := by
  decide

/-- V34. -/
theorem test_div : aluStep 0xA3 0x07 0x02 = (0x03, 0x02, 3, true) := by decide

/-- V37. -/
theorem test_div_by_zero :
    stop (afterSubDiv ((start [0xA3, 0x00, 0x01]).setReg 0 9)) = (.halted, .divideByZero, 0, 1) ∧
    onlyFault ((start [0xA3, 0x00, 0x01]).setReg 0 9) (afterSubDiv ((start [0xA3, 0x00, 0x01]).setReg 0 9)) = true := by
  decide

/-- V38. -/
theorem test_mod : aluStep 0xA4 0x11 0x05 = (0x02, 0x05, 3, true) := by decide

/-- V42, V77. -/
theorem test_mod_faults :
    stop (after ((start [0xA4, 0x00, 0x01]).setReg 0 9)) = (.halted, .divideByZero, 0, 1) ∧
    onlyFault ((start [0xA4, 0x00, 0x01]).setReg 0 9) (after ((start [0xA4, 0x00, 0x01]).setReg 0 9)) = true ∧
    stop (after (start [0xA4, 0x08, 0x01])) = (.faulted, .registerIndex, 0, 8) := by decide

/-- V43. -/
theorem test_and : aluStep 0xA8 0xF0 0x3C = (0x30, 0x3C, 3, true) := by decide

/-- V45. -/
theorem test_or : aluStep 0xAA 0xF0 0x3C = (0xFC, 0x3C, 3, true) := by decide

/-- V47, V60. -/
theorem test_xor : aluStep 0xAB 0xF0 0x3C = (0xCC, 0x3C, 3, true) ∧
    (after ((start [0xAB, 0x02, 0x02]).setReg 2 0x5A)).regs[2] = 0 := by decide

/-- V64. -/
theorem test_not : (after ((start [0x69, 0x04]).setReg 4 0x0F)).regs[4] = 0xF0 ∧
    (after ((start [0x69, 0x04]).setReg 4 0x0F)).pc = 2 := by decide

/-- V50, V52, V53. -/
theorem test_shl : aluStep 0xAC 0x81 0x01 = (0x02, 0x01, 3, true) ∧ aluStep 0xAC 0x01 0x08 = (0x00, 0x08, 3, true) ∧
    aluStep 0xAC 0x01 0xFF = (0x00, 0xFF, 3, true) := by decide

/-- V55, V56, V58. -/
theorem test_shr : aluStep 0xAD 0x80 0x07 = (0x01, 0x07, 3, true) ∧ aluStep 0xAD 0xFF 0x04 = (0x0F, 0x04, 3, true) ∧
    aluStep 0xAD 0x03 0xFF = (0x00, 0xFF, 3, true) := by decide

/-- V71, V72. -/
theorem test_cmp_unsigned : efl (after ((start [0xA7, 0x00, 0x01]).setReg 1 0xFF)) = (false, true, false) ∧
    efl (after ((start [0xA7, 0x00, 0x01]).setReg 0 0xFF)) = (false, false, true) := by decide

/-- V73. -/
theorem test_cmp_equal :
    efl (after ((start [0xA7, 0x05, 0x05]).setFlags ⟨false, false, true⟩)) = (true, false, false) := by decide

/-- V75, V76. -/
theorem test_alu_register_index : stop (after (start [0xA0, 0x00, 0x09])) = (.faulted, .registerIndex, 0, 9) ∧
    stop (after (start [0xA0, 0x09, 0x0A])) = (.faulted, .registerIndex, 0, 9) := by decide

/-! ### Stack -/

/-- V78, V79: the second overwrites its own opcode byte after it was fetched. -/
theorem test_push :
    after ((start [0x45, 0x00]).setReg 0 0x2A) =
      { (start [0x45, 0x00]).setReg 0 0x2A with sp := 255, mem := [(0, 0x45), (255, 0x2A)], pc := 2 } ∧
    after { (start [0x45, 0x00]).setReg 0 0x2A with sp := 1 } =
      { (start [0x45, 0x00]).setReg 0 0x2A with sp := 0, mem := [(0, 0x2A)], pc := 2 } := by decide

/-- V80. -/
theorem test_push_overflow : stop (after { start [0x45, 0x00] with sp := 0 }) = (.faulted, .stackOverflow, 0, 0) ∧
    onlyFault { start [0x45, 0x00] with sp := 0 } (after { start [0x45, 0x00] with sp := 0 }) = true := by decide

/-- V81: the byte stays in memory. -/
theorem test_pop : after { (start [0x46, 0x01]).placeBytes 255 [0x2A] with sp := 255 } =
    { ((start [0x46, 0x01]).placeBytes 255 [0x2A]).setReg 1 0x2A with sp := 256, pc := 2 } := by decide

/-- V82. -/
theorem test_pop_underflow : stop (after (start [0x46, 0x01])) = (.faulted, .stackUnderflow, 0, 256) ∧
    onlyFault (start [0x46, 0x01]) (after (start [0x46, 0x01])) = true := by decide

/-! ### Control transfer -/

/-- V87: return address 255 is legal. -/
theorem test_call : after ((startAt 253 [0x50, 0x01]).setReg 1 0x10) =
    { (startAt 253 [0x50, 0x01]).setReg 1 0x10 with
      sp := 255, mem := [(253, 0x50), (254, 0x01), (255, 0xFF)], pc := 0x10 } := by decide

/-- V89, V90. -/
theorem test_call_faults :
    stop (after { startAt 254 [0x50, 0x01] with sp := 0 }) = (.faulted, .returnAddress, 254, 256) ∧
    stop (after { startAt 4 [0x50, 0x01] with sp := 0 }) = (.faulted, .stackOverflow, 4, 0) := by decide

/-- V92, V93. -/
theorem test_ret :
    after { (start [0x11]).placeBytes 255 [0x06] with sp := 255 } =
      { (start [0x11]).placeBytes 255 [0x06] with sp := 256, pc := 6 } ∧
    stop (after (start [0x11])) = (.faulted, .stackUnderflow, 0, 256) := by decide

/-- V95. -/
theorem test_jmp : (after ((startAt 8 [0x54, 0x02]).setReg 2 0xFF)).pc = 0xFF := by decide

/-- V96, V97. -/
theorem test_jeq :
    (after (((startAt 10 [0x55, 0x03]).setReg 3 0x30).setFlags ⟨true, false, false⟩)).pc = 0x30 ∧
    (after (((startAt 10 [0x55, 0x03]).setReg 3 0x30).setFlags ⟨false, true, false⟩)).pc = 0x0C := by decide

/-- V101: checked although the branch is not taken. -/
theorem test_jeq_register_index : stop (after (start [0x55, 0x08])) = (.faulted, .registerIndex, 0, 8) := by decide

/-- V100, V99. -/
theorem test_jne :
    (after ((startAt 10 [0x56, 0x03]).setReg 3 0x30)).pc = 0x30 ∧
    (after (((startAt 10 [0x56, 0x03]).setReg 3 0x30).setFlags ⟨true, false, false⟩)).pc = 0x0C := by decide

/-! ### The hypotheses of the statements are met -/

theorem distinct_thisHardware : Params.thisHardware.Distinct := defaultOpcodeMap_distinct false _

theorem distinct_withSubDiv : withSubDiv.Distinct := defaultOpcodeMap_distinct true _

/-- A running state without a fault has the invariant when its numbers and its memory are in range. -/
theorem inv_of_running (s : State) (h : s.status = .running) (hf : s.fault = ⟨.none, 0, 0⟩) (hpc : s.pc.toNat ≤ 256)
    (hsp : s.sp.toNat ≤ 256) (hm : Memory.wf s.mem = true)
    (hfl : (s.flags.e && s.flags.l) = false ∧ (s.flags.e && s.flags.g) = false ∧ (s.flags.l && s.flags.g) = false) :
    s.Inv where
  pc_le := hpc
  sp_le := hsp
  mem_wf := hm
  flags_exclusive := hfl
  fault_legal := by rw [hf]; exact ⟨rfl, rfl⟩
  running_no_fault := fun _ => by rw [hf]
  halted_cause := fun e => by rw [h] at e; cases e
  faulted_cause := fun e => by rw [h] at e; cases e
  fault_pc := fun e => by rw [hf] at e; exact absurd rfl e

theorem witness_EncodeThenDecode :
    Params.thisHardware.Distinct ∧ Params.thisHardware.decodes (Instr.ldi 255 255).mnemonic = true ∧
    withSubDiv.Distinct ∧ withSubDiv.decodes (Instr.sub 0 255).mnemonic = true :=
  ⟨distinct_thisHardware, rfl, distinct_withSubDiv, rfl⟩

theorem witness_DecodeThenEncode :
    decode Params.thisHardware [0x82, 0xFF, 0xFF, 0x01] = .ok (.ldi 255 255, [0x01]) ∧
    decode Params.thisHardware [0x01] = .ok (.hlt, []) := ⟨rfl, rfl⟩

theorem witness_WidthFollowsOpcode :
    decodeOpcode Params.thisHardware 0x00 = none ∧
    decodeOpcode Params.thisHardware 0x11 = some .ret ∧
    decodeFrom Params.thisHardware (fun k => [0x11][k]?) = .ok .ret ∧
    decodeOpcode Params.thisHardware 0x45 = some .push ∧
    decodeFrom Params.thisHardware (fun k => [0x45, 0x07][k]?) = .ok (.push 7) ∧
    decodeOpcode Params.thisHardware 0x82 = some .ldi ∧
    decodeFrom Params.thisHardware (fun k => [0x82, 0x00, 0xFF][k]?) = .ok (.ldi 0 0xFF) :=
  ⟨rfl, rfl, rfl, rfl, rfl, rfl, rfl⟩

theorem witness_FetchReadsOnlyTheInstruction :
    decodeFrom Params.thisHardware (fun k => [0x45, 0x07][k]?) = .ok (.push 7) ∧
    (∀ k, k < (Instr.push 7).width → [0x45, 0x07, 0x09][k]? = [(0x45 : Byte), 0x07][k]?) := by
  refine ⟨rfl, ?_⟩
  decide

/-- An instruction that ends at 255. -/
theorem witness_StepRunsEncodedInstruction :
    Params.thisHardware.Distinct ∧ Params.thisHardware.decodes (Instr.add 0 1).mnemonic = true ∧
    (startAt 253 [0xA0, 0x00, 0x01]).status = .running ∧
    (∀ (k : Nat) (hk : k < (encode Params.thisHardware (.add 0 1)).length),
      (startAt 253 [0xA0, 0x00, 0x01]).memRead ((startAt 253 [0xA0, 0x00, 0x01]).pc.toNat + k) =
        some (encode Params.thisHardware (.add 0 1))[k]) :=
  ⟨distinct_thisHardware, rfl, rfl, by decide⟩

theorem witness_StepOfStoppedCoreDoesNothing :
    (after (start [0x01])).status ≠ .running ∧ (after (start [0x00])).status ≠ .running := by decide

theorem witness_UnknownOpcodeFault :
    (startAt 255 [0xFF]).status = .running ∧
    (startAt 255 [0xFF]).memRead (startAt 255 [0xFF]).pc.toNat = some 0xFF ∧
    (∀ m : Mnemonic, Params.thisHardware.decodes m = true → Params.thisHardware.opcodeMap m ≠ 0xFF) := by
  refine ⟨by decide, by decide, fun m => ?_⟩
  cases m <;> decide

/-- The opcode at 256; two bytes at 255; three bytes at 254 and at 255. -/
theorem witness_FetchBoundsFault :
    (startAt 256 []).status = .running ∧ (startAt 256 []).pc.toNat = 256 ∧
    (startAt 255 [0x47]).memRead (startAt 255 [0x47]).pc.toNat = some 0x47 ∧
    decodeOpcode Params.thisHardware 0x47 = some .prn ∧ (startAt 255 [0x47]).pc.toNat + Mnemonic.prn.width > 256 ∧
    (startAt 254 [0x82, 0x00]).memRead (startAt 254 [0x82, 0x00]).pc.toNat = some 0x82 ∧
    decodeOpcode Params.thisHardware 0x82 = some .ldi ∧
    (startAt 254 [0x82, 0x00]).pc.toNat + Mnemonic.ldi.width > 256 ∧
    (startAt 255 [0x82]).memRead (startAt 255 [0x82]).pc.toNat = some 0x82 ∧
    (startAt 255 [0x82]).pc.toNat + Mnemonic.ldi.width > 256 := by decide

/-- Both clauses, the faults at the ends of `pc` and `sp`. -/
theorem witness_FaultsFollowSpecOrder :
    Params.thisHardware.Distinct ∧
    firstFault Params.thisHardware (startAt 256 []) = some (.memoryBounds, 256) ∧
    firstFault Params.thisHardware { startAt 254 [0x50, 0x01] with sp := 0 } = some (.returnAddress, 256) ∧
    firstFault Params.thisHardware (start [0x46, 0x08]) = some (.registerIndex, 8) ∧
    firstFault Params.thisHardware (start [0x11]) = some (.stackUnderflow, 256) ∧
    firstFault Params.thisHardware { start [0x45, 0x07] with sp := 0 } = some (.stackOverflow, 0) ∧
    firstFault Params.thisHardware (start [0xA4, 0x00, 0x07]) = some (.divideByZero, 7) ∧
    firstFault Params.thisHardware (start [0x82, 0x07, 0xFF]) = none ∧
    firstFault Params.thisHardware (start [0x01]) = none :=
  ⟨distinct_thisHardware, by decide⟩

theorem witness_StepKeepsInvariant :
    (start [0x45, 0x00]).Inv ∧ stepWith Params.thisHardware (start [0x45, 0x00]) = .next (after (start [0x45, 0x00])) :=
  ⟨inv_of_running _ rfl rfl (by decide) (by decide) (by decide) (by decide), next_of_answers (by decide)⟩

/-- A step meets the hypotheses of `PcAfterCompletedStep` and runs `i`. -/
def completes (i : Instr) (s : State) : Prop :=
  s.Inv ∧ s.status = .running ∧ s.fetch Params.thisHardware = .ok i ∧
    stepWith Params.thisHardware s = .next (after s) ∧ (after s).fault.cause = .none

theorem completes_of (i : Instr) (s : State)
    (h : s.status = .running ∧ s.fault = ⟨.none, 0, 0⟩ ∧ s.pc.toNat ≤ 256 ∧ s.sp.toNat ≤ 256 ∧ Memory.wf s.mem = true ∧
      ((s.flags.e && s.flags.l) = false ∧ (s.flags.e && s.flags.g) = false ∧ (s.flags.l && s.flags.g) = false) ∧
      answers (stepWith Params.thisHardware s) (after s) = true ∧ (after s).fault.cause = .none)
    (hi : s.fetch Params.thisHardware = .ok i) : completes i s :=
  ⟨inv_of_running s h.1 h.2.1 h.2.2.1 h.2.2.2.1 h.2.2.2.2.1 h.2.2.2.2.2.1, h.1, hi,
    next_of_answers h.2.2.2.2.2.2.1, h.2.2.2.2.2.2.2⟩

/-- One for each clause: CALL at 253, JMP, RET, the branches taken and not taken, HLT at 255, and a step that advances
by 2 and one by 3 to 256. -/
theorem witness_PcAfterCompletedStep :
    completes (.call 1) (startAt 253 [0x50, 0x01]) ∧
    completes (.jmp 2) (startAt 8 [0x54, 0x02]) ∧
    completes .ret { (start [0x11]).placeBytes 255 [0xFF] with sp := 255 } ∧
    completes (.jeq 3) ((start [0x55, 0x03]).setFlags ⟨true, false, false⟩) ∧
    completes (.jeq 3) (startAt 254 [0x55, 0x03]) ∧
    completes (.jne 3) (startAt 254 [0x56, 0x03]) ∧
    completes (.jne 3) ((start [0x56, 0x03]).setFlags ⟨true, false, false⟩) ∧
    completes .hlt (startAt 255 [0x01]) ∧
    completes (.prn 0) (startAt 254 [0x47, 0x00]) ∧
    completes (.add 0 1) (startAt 253 [0xA0, 0x00, 0x01]) := by
  refine ⟨?_, ?_, ?_, ?_, ?_, ?_, ?_, ?_, ?_, ?_⟩ <;> refine completes_of _ _ ?_ rfl <;> decide

theorem witness_SubDivFollowParameter :
    Params.thisHardware.Distinct ∧ Params.thisHardware.decodeSubDiv = false ∧ (start [0xA1]).status = .running ∧
    (start [0xA1]).memRead (start [0xA1]).pc.toNat = some (Params.thisHardware.opcodeMap .sub) ∧
    (start [0xA3]).memRead (start [0xA3]).pc.toNat = some (Params.thisHardware.opcodeMap .div) ∧
    withSubDiv.Distinct ∧ withSubDiv.decodeSubDiv = true ∧
    (startAt 253 [0xA1, 0x02, 0x03]).memRead 254 = some 2 ∧ (startAt 253 [0xA1, 0x02, 0x03]).memRead 255 = some 3 ∧
    (startAt 253 [0xA1, 0x02, 0x03]).memRead 253 = some (withSubDiv.opcodeMap .sub) ∧
    (startAt 253 [0xA3, 0x02, 0x03]).memRead 254 = some 2 ∧ (startAt 253 [0xA3, 0x02, 0x03]).memRead 255 = some 3 ∧
    (startAt 253 [0xA3, 0x02, 0x03]).memRead 253 = some (withSubDiv.opcodeMap .div) ∧
    (startAt 253 [0xA3, 0x02, 0x03]).pc.toNat = 253 :=
  ⟨distinct_thisHardware, rfl, by decide, by decide, by decide, distinct_withSubDiv, rfl, by decide⟩

theorem witness_RegisterIndexFault :
    (8 : Byte).toNat > 7 ∧ (255 : Byte).toNat > 7 ∧ ((7 : Byte).toNat ≤ 7 ∧ (8 : Byte).toNat > 7) ∧
    ((0 : Byte).toNat ≤ 7 ∧ (255 : Byte).toNat > 7) := by decide

theorem witness_LdiResult : (0 : Byte).toNat < 8 ∧ (7 : Byte).toNat < 8 := by decide

theorem witness_PrnResult : (0 : Byte).toNat < 8 ∧ (7 : Byte).toNat < 8 := by decide

theorem witness_AddSubMulResult : (0 : Byte).toNat < 8 ∧ (7 : Byte).toNat < 8 := by decide

theorem witness_DivModResult :
    ∃ (_ : (0 : Byte).toNat < 8) (hb : (7 : Byte).toNat < 8),
      (State.reset.setReg 7 1).regs[(7 : Byte).toNat].toNat ≠ 0 := by decide

theorem witness_DivideByZeroFault :
    ∃ (_ : (0 : Byte).toNat < 8) (hb : (7 : Byte).toNat < 8), (State.reset.setReg 0 9).regs[(7 : Byte).toNat] = 0 := by
  decide

theorem witness_LogicResult : (0 : Byte).toNat < 8 ∧ (7 : Byte).toNat < 8 := by decide

theorem witness_ShiftResult : (0 : Byte).toNat < 8 ∧ (7 : Byte).toNat < 8 := by decide

theorem witness_CmpResult : (0 : Byte).toNat < 8 ∧ (7 : Byte).toNat < 8 := by decide

theorem witness_SameRegisterTwice :
    ∃ ha : (7 : Byte).toNat < 8,
      (State.reset.setReg 7 1).regs[(7 : Byte).toNat] ≠ 0 ∧ State.reset.regs[(7 : Byte).toNat] = 0 := by decide

theorem witness_FlagRules :
    (stepWith Params.thisHardware (start [0xA7, 0x00, 0x07]) = .next (after (start [0xA7, 0x00, 0x07])) ∧
      (after (start [0xA7, 0x00, 0x07])).flags ≠ (start [0xA7, 0x00, 0x07]).flags) ∧
    ((∀ a b : Byte, Instr.jeq 0 ≠ .cmp a b) ∧ exec (.jeq 0) State.reset = .next { State.reset with pc := 2 }) ∧
    ((∀ a b : Byte, Instr.hlt ≠ .cmp a b) ∧ (∀ a : Byte, Instr.hlt ≠ .jeq a ∧ Instr.hlt ≠ .jne a) ∧
      exec .hlt State.reset = .next { State.reset with status := .halted, pc := 1 }) ∧
    ((0 : Byte).toNat < 8 ∧ (7 : Byte).toNat < 8) ∧ (startAt 254 [0x55, 0x07]).pc.toNat + 2 ≤ 256 := by
  refine ⟨⟨next_of_answers (by decide), by decide⟩, ⟨fun a b h => (by cases h), next_of_answers (by decide)⟩,
    ⟨fun a b h => (by cases h), fun a => ⟨fun h => (by cases h), fun h => (by cases h)⟩, next_of_answers (by decide)⟩,
    by decide, by decide⟩

theorem witness_RegisterUse :
    ((∀ a ∈ (Instr.add 0 1).regOperands, a.toNat ≠ (7 : Fin 8).val) ∧
      (Instr.add 0 1).operands.head? ≠ some (BitVec.ofNat 8 (7 : Fin 8).val) ∧
      exec (.add 0 1) State.reset = .next { State.reset with pc := 3 }) ∧
    (exec (.prn 7) State.reset = .next { State.reset with output := [0], pc := 2 }) ∧
    ((7 : Byte).toNat < 8 ∧ ({ State.reset with sp := 255 : State }).sp.toNat < 256) :=
  ⟨⟨by decide, by decide, next_of_answers (by decide)⟩, next_of_answers (by decide), by decide⟩

theorem witness_RegistersAreAlike :
    State.reset.fault.cause = .none ∧ exec (.ldi 0 9) State.reset = .next ((State.reset.setReg 0 9).advance 3) ∧
    ((State.reset.setReg 0 9).advance 3).fault.cause = .none ∧
    renameInstr (Equiv.swap 0 7) (.ldi 0 9) = .ldi 7 9 :=
  ⟨rfl, next_of_answers (by decide), rfl, by decide⟩

/-- A form that stores, seen at the addresses beside the stored byte, and one that does not. -/
theorem witness_MemoryAndSpFrame :
    (exec (.push 0) (State.reset.setReg 0 9) =
        .next { State.reset.setReg 0 9 with sp := 255, mem := [(255, 9)], pc := 2 } ∧
      254 + 1 ≠ (State.reset.setReg 0 9).sp.toNat ∧ 256 + 1 ≠ (State.reset.setReg 0 9).sp.toNat) ∧
    (exec .hlt State.reset = .next { State.reset with status := .halted, pc := 1 } ∧
      (∀ a : Byte, Instr.hlt ≠ .push a ∧ Instr.hlt ≠ .call a ∧ Instr.hlt ≠ .pop a ∧ Instr.hlt ≠ .ret)) := by
  refine ⟨⟨next_of_answers (by decide), by decide⟩, next_of_answers (by decide), fun a => ⟨?_, ?_, ?_, ?_⟩⟩ <;>
    intro h <;> cases h

theorem witness_OutputChannel :
    stepWith Params.thisHardware (start [0x47, 0x07]) = .next (after (start [0x47, 0x07])) ∧
    (start [0x47, 0x07]).status = .running ∧ (start [0x47, 0x07]).fetch Params.thisHardware = .ok (.prn 7) ∧
    (7 : Byte).toNat < 8 := ⟨next_of_answers (by decide), by decide, rfl, by decide⟩

/-- `sp` = 1 and 256. -/
theorem witness_PushResult :
    ((7 : Byte).toNat < 8 ∧ 0 < State.reset.sp.toNat ∧ State.reset.sp.toNat ≤ 256 ∧ Memory.wf State.reset.mem = true) ∧
    (0 < ({ start [0x45, 0x07] with sp := 1 : State }).sp.toNat ∧
      Memory.wf ({ start [0x45, 0x07] with sp := 1 : State }).mem = true) := by
  decide

/-- `sp` = 0 and 255. -/
theorem witness_PopResult :
    (7 : Byte).toNat < 8 ∧ ({ State.reset with sp := 0 : State }).sp.toNat < 256 ∧
    ({ State.reset with sp := 255 : State }).sp.toNat < 256 := by
  decide

/-- The byte of HLT pushed over the program, and then `pc` at it. -/
theorem witness_PushedByteIsExecuted :
    Params.thisHardware.Distinct ∧
    ∃ ha : (7 : Byte).toNat < 8,
      (State.reset.setReg 7 0x01).regs[(7 : Byte).toNat] = Params.thisHardware.opcodeMap Instr.hlt.mnemonic ∧
      (State.reset.setReg 7 0x11).regs[(7 : Byte).toNat] = Params.thisHardware.opcodeMap Instr.ret.mnemonic ∧
      0 < (State.reset.setReg 7 0x01).sp.toNat ∧ (State.reset.setReg 7 0x01).sp.toNat ≤ 256 ∧
      Memory.wf (State.reset.setReg 7 0x01).mem = true ∧
      startAt 255 [0x01] = { State.reset with mem := [(255, 0x01)], pc := 255 } :=
  ⟨distinct_thisHardware, by decide⟩

theorem witness_StackFaults :
    (7 : Byte).toNat < 8 ∧ ({ startAt 253 [] with sp := 0 : State }).sp = 0 ∧
    ({ startAt 253 [] with sp := 0 : State }).pc.toNat + 2 ≤ 255 ∧ State.reset.sp = 256 := by decide

theorem witness_PushThenPop :
    (0 : Byte).toNat < 8 ∧ (7 : Byte).toNat < 8 ∧ 0 < State.reset.sp.toNat ∧ State.reset.sp.toNat ≤ 256 ∧
    Memory.wf State.reset.mem = true ∧ 0 < ({ State.reset with sp := 1 : State }).sp.toNat := by decide

/-- `pc` = 253, `sp` = 1 and 256. -/
theorem witness_CallResult :
    (7 : Byte).toNat < 8 ∧ (startAt 253 [0x50, 0x07]).pc.toNat + 2 ≤ 255 ∧ 0 < (startAt 253 [0x50, 0x07]).sp.toNat ∧
    (startAt 253 [0x50, 0x07]).sp.toNat ≤ 256 ∧ Memory.wf (startAt 253 [0x50, 0x07]).mem = true ∧
    0 < ({ startAt 253 [0x50, 0x07] with sp := 1 : State }).sp.toNat := by decide

theorem witness_RetResult :
    ({ State.reset with sp := 0 : State }).sp.toNat < 256 ∧
    ({ State.reset with sp := 255 : State }).sp.toNat < 256 := by decide

/-- The three clauses at `pc` = 253, 254 and 255. -/
theorem witness_CallReturnAddress :
    (1 : Byte).toNat < 8 ∧
    ((startAt 253 [0x50, 0x01]).pc.toNat + 2 ≤ 255 ∧ 0 < (startAt 253 [0x50, 0x01]).sp.toNat ∧
      (startAt 253 [0x50, 0x01]).sp.toNat ≤ 256 ∧ Memory.wf (startAt 253 [0x50, 0x01]).mem = true) ∧
    (startAt 254 [0x50, 0x01]).pc.toNat = 254 ∧
    (Params.thisHardware.Distinct ∧ (startAt 255 [0x50]).status = .running ∧ (startAt 255 [0x50]).pc.toNat = 255 ∧
      (startAt 255 [0x50]).memRead 255 = some (Params.thisHardware.opcodeMap .call)) :=
  ⟨by decide, by decide, by decide, distinct_thisHardware, by decide⟩

theorem witness_CallThenRet :
    (1 : Byte).toNat < 8 ∧ (startAt 253 [0x50, 0x01]).pc.toNat + 2 ≤ 255 ∧ 0 < (startAt 253 [0x50, 0x01]).sp.toNat ∧
    (startAt 253 [0x50, 0x01]).sp.toNat ≤ 256 ∧ Memory.wf (startAt 253 [0x50, 0x01]).mem = true := by decide

theorem witness_JumpResult : (0 : Byte).toNat < 8 ∧ (7 : Byte).toNat < 8 := by decide

theorem witness_ResetValues : 0 < 256 ∧ 255 < 256 := by decide

/-- Images of 256 and of 257 bytes, a load before and after the first step, and a step. -/
theorem witness_LoadInterface :
    (List.replicate 256 (0xFF : Byte)).length ≤ 256 ∧ (List.replicate 257 (0xFF : Byte)).length > 256 ∧
    Memory.wf (start [0x01]).mem = true ∧
    Session.serve Params.thisHardware ⟨start [0x01], false⟩ .step = .next ⟨after (start [0x01]), true⟩ := by
  refine ⟨List.length_replicate.le, List.length_replicate.ge, by decide, ?_⟩
  simp only [Session.serve, next_of_answers (o := stepWith Params.thisHardware (start [0x01])) (t := after (start [0x01])) (by decide)]

theorem witness_RunStopsByHltOrFault :
    ((start [0x01]).status = .running ∧ (start [0x01]).fetch Params.thisHardware = .ok .hlt ∧
      stepWith Params.thisHardware (start [0x01]) = .next (after (start [0x01])) ∧
      (after (start [0x01])).status ≠ .running) ∧
    (stepWith Params.thisHardware (start [0xA4, 0x00, 0x00]) = .next (after (start [0xA4, 0x00, 0x00])) ∧
      (after (start [0xA4, 0x00, 0x00])).status ≠ .running) ∧
    (stepWith Params.thisHardware (start [0x00]) = .next (after (start [0x00])) ∧
      (after (start [0x00])).status ≠ .running) :=
  ⟨⟨rfl, rfl, next_of_answers (by decide), by decide⟩, ⟨next_of_answers (by decide), by decide⟩,
    ⟨next_of_answers (by decide), by decide⟩⟩

theorem witness_StoppedUntilReset :
    (after (start [0x01])).status = .halted ∧ (after (start [0x00])).status = .faulted := by decide

theorem witness_EndOfRunIsUnique : EndsIn Params.thisHardware (start [0x01]) 1 (after (start [0x01])) := by
  refine ⟨next_of_answers (by decide), by decide, fun j u hj h => ?_⟩
  obtain rfl : j = 0 := by omega
  cases h
  decide

/-- A state for each end: HLT, divide by zero, unknown opcode, a bounds fault; and one that runs. -/
theorem witness_HostDutyByEnd :
    ((start [0x01]).Inv ∧ (start [0x01]).status = .running) ∧
    ({ State.reset with status := .halted, pc := 1 }.Inv) ∧
    ({ State.reset with status := .halted, fault := ⟨.divideByZero, 0, 7⟩ }.Inv) ∧
    ({ State.reset with status := .faulted, fault := ⟨.unknownOpcode, 0, 255⟩ }.Inv) ∧
    ({ State.reset with status := .faulted, fault := ⟨.memoryBounds, 256, 256⟩, pc := 256 }.Inv) := by
  refine ⟨⟨inv_of_running _ rfl rfl (by decide) (by decide) (by decide) (by decide), rfl⟩, ?_, ?_, ?_, ?_⟩ <;>
    refine ⟨by decide, by decide, by decide, by decide, ?_, by decide, by decide, by decide, by decide⟩ <;>
    simp [FaultRecord.legal]

/-- A run of each kind: HLT ends, and a JMP to its own address never does and prints nothing. -/
theorem witness_ObservationOfRun :
    Observes Params.thisHardware (start [0x01]) (.finished (after (start [0x01]))) ∧
    Observes Params.thisHardware (start [0x54, 0x00]) (.endless fun _ => none) := by
  have run : ∀ k, runWith Params.thisHardware k (start [0x54, 0x00]) = .next (start [0x54, 0x00]) :=
    runWith_of_fixed (next_of_answers (by decide))
  refine ⟨⟨1, witness_EndOfRunIsUnique⟩, fun k t h => ?_, fun n v => ⟨fun h => (by cases h), ?_⟩⟩
  · rw [run] at h
    cases h
    decide
  · rintro ⟨k, t, h, hv⟩
    rw [run] at h
    cases h
    have ho : (start [0x54, 0x00]).output = [] := by decide
    rw [ho] at hv
    cases hv

/-! ### A map with a repeated byte (the model's choice, notes/assumptions/3) -/

/-- MUL given the byte of SUB: it decodes as MUL while SUB is not decoded, and as nothing when both are. -/
theorem test_repeated_byte :
    decodeOpcode ⟨fun m => if m = .mul then 0xA1 else defaultOpcodeMap m, false, []⟩ 0xA1 = some .mul ∧
    decodeOpcode ⟨fun m => if m = .mul then 0xA1 else defaultOpcodeMap m, true, []⟩ 0xA1 = none := by decide

/-! ### Other values of R9's parameters -/

/-- A machine of 16 cells and 4 registers, `pc` and `sp` of 5 bits, `SP_RESET` = 16. -/
def small : MachineParams :=
  { toParams := withSubDiv, memSize := 16, numRegs := 4, pcWidth := 5, spWidth := 5, spReset := 16 }

/-- Its state after the first step of the bytes loaded. -/
def afterSmall (bytes : List Byte) : small.StateType :=
  match small.step (small.reset.placeBytes 0 bytes) with
  | .next t => t
  | .fault _ | .refused _ => small.reset

/-- Its first PUSH goes to cell 15 (R141), and register 4 does not exist (R88). -/
theorem test_small_machine :
    ((afterSmall [0x45, 0x00]).sp = 15 ∧ (afterSmall [0x45, 0x00]).pc = 2) ∧
    (afterSmall [0x45, 0x04]).sp = 16 ∧ (afterSmall [0x45, 0x04]).fault = ⟨.registerIndex, 0, 4⟩ := by decide

/-- A fetch at `MEM_SIZE`, and a fetched instruction whose operand `b` is the first that names no register. -/
theorem witness_ParametersBoundTheMachine :
    (small.memSize ≤ ({ small.reset with pc := 16 } : small.StateType).pc.toNat ∧
      ({ small.reset with pc := 16 } : small.StateType).status = .running) ∧
    (small.reset.placeBytes 0 [0xA0, 0x03, 0x04]).status = .running ∧
    (small.reset.placeBytes 0 [0xA0, 0x03, 0x04]).fetch small.toParams = .ok (.add 3 4) ∧
    (Instr.add 3 4).regOperands.find? (fun x => decide (small.numRegs ≤ x.toNat)) = some 4 := by decide

end Sys2Proof.Tests
end

/-! ## The machine of any parameter table (R9)

The lemmas of `Laws/` on a read, the fetch, phase V and the step speak of this hardware's sizes; these are for every
size. -/

namespace Sys2Proof

theorem Instr.width_eq_length_encode (p : Params) (i : Instr) : i.width = (encode p i).length := by
  cases i <;> rfl

end Sys2Proof

namespace Sys2Proof.Machine

section AnySizes

variable {M N W P S : Nat}

/-! ### Memory and fetch -/

theorem State.lt_memSize_of_memRead {s : State M N W P S} {k : Nat} {v : Byte} (h : s.memRead k = some v) : k < M := by
  by_contra hk
  simp [State.memRead, hk] at h

theorem State.fetch_of_memSize_le_pc (p : Params) {s : State M N W P S} (h : M ≤ s.pc.toNat) :
    s.fetch p = .error (.noByte 0) := by
  have h0 : s.instrByte 0 = none := if_neg (Nat.not_lt.mpr h)
  simp [State.fetch, decodeFrom, h0]

/-- The last byte of a fetched instruction was read, so its address exists. -/
theorem State.fetch_ok_le_memSize {p : Params} {s : State M N W P S} {i : Instr} (h : s.fetch p = .ok i) :
    s.pc.toNat + i.width ≤ M := by
  have hlen : i.width = i.operands.length + 1 := i.width_eq_length_encode p
  have hlast : i.width - 1 < (encode p i).length := by rw [← i.width_eq_length_encode p]; omega
  have hread : s.memRead (s.pc.toNat + (i.width - 1)) = some (encode p i)[i.width - 1] :=
    (decodeFrom_ok_bytes h _ (by omega)).trans (List.getElem?_eq_getElem hlast)
  have := State.lt_memSize_of_memRead hread
  omega

/-! ### Phase V -/

/-- Phase V checks its operands in turn: if the first of `a :: as` that names no register is `c`, and the continuation
raises for `c` whenever `c` is the first such of `as`, then `REGISTER_INDEX` is raised for `c` (R88). -/
theorem withReg_of_find_cons {a c : Byte} {as : List Byte} {s : State M N W P S} {k : Fin N → Answer M N W P S}
    (h : (a :: as).find? (fun x => decide (N ≤ x.toNat)) = some c)
    (hk : as.find? (fun x => decide (N ≤ x.toNat)) = some c →
      ∀ j, k j = raised .registerIndex (Ptr.ofByte c) s) :
    withReg a s k = raised .registerIndex (Ptr.ofByte c) s := by
  by_cases ha : a.toNat < N
  · rw [List.find?_cons_of_neg (by simpa using ha)] at h
    simpa [withReg, regIndex, ha] using hk h ⟨a.toNat, ha⟩
  · rw [List.find?_cons_of_pos (by simpa using ha)] at h
    cases h
    simp [withReg, regIndex, ha]

/-- Phase V of an instruction with one register operand. -/
theorem withReg_of_find {a c : Byte} {s : State M N W P S} {k : Fin N → Answer M N W P S}
    (h : [a].find? (fun x => decide (N ≤ x.toNat)) = some c) :
    withReg a s k = raised .registerIndex (Ptr.ofByte c) s :=
  withReg_of_find_cons h nofun

/-- Phase V of a two-operand ALU instruction. -/
theorem aluTwo_of_find {op : BitVec W → BitVec W → AluOp W} {a b c : Byte} {s : State M N W P S}
    (h : [a, b].find? (fun x => decide (N ≤ x.toNat)) = some c) :
    aluTwo op a b s = raised .registerIndex (Ptr.ofByte c) s :=
  withReg_of_find_cons h fun hb _ => withReg_of_find hb

/-- An instruction raises `REGISTER_INDEX` with the first of its register operands that names no register (R88). -/
theorem execAt_of_find_regOperands {i : Instr} {a : Byte} {s : State M N W P S}
    (h : i.regOperands.find? (fun x => decide (N ≤ x.toNat)) = some a) :
    execAt i s = .next (s.raise .registerIndex (Ptr.ofByte a)) := by
  cases i with
  | hlt | ret => cases h
  | push | pop | prn | call | jmp | jeq | jne | not | ldi => exact withReg_of_find h
  | add | sub | mul | div | mod | cmp | and | or | xor | shl | shr => exact aluTwo_of_find h

end AnySizes

/-! ### The step and the reset -/

variable {q : MachineParams}

theorem MachineParams.step_of_fetch_ok {s : q.StateType} {i : Instr} (hs : s.status = .running)
    (hf : s.fetch q.toParams = .ok i) : q.step s = execAt i s := by
  simp [MachineParams.step, State.stepBy, hs, hf]

theorem MachineParams.step_of_fetch_noByte {s : q.StateType} {k : Nat} (hs : s.status = .running)
    (hf : s.fetch q.toParams = .error (.noByte k)) :
    q.step s = .next (s.raise .memoryBounds (BitVec.ofNat q.pcWidth (s.pc.toNat + k))) := by
  simp [MachineParams.step, State.stepBy, hs, hf, fetchFault, raised]

theorem MachineParams.step_of_memSize_le_pc {s : q.StateType} (hs : s.status = .running)
    (hpc : q.memSize ≤ s.pc.toNat) : q.step s = .next (s.raise .memoryBounds s.pc) := by
  simpa using step_of_fetch_noByte hs (State.fetch_of_memSize_le_pc q.toParams hpc)

theorem MachineParams.reset_sp_toNat (q : MachineParams) : q.reset.sp.toNat = q.spReset % 2 ^ q.spWidth :=
  BitVec.toNat_ofNat q.spReset q.spWidth

/-! ### The statements about the parameter table -/

/-- Settles O54: each bound is a lemma for any sizes, above. -/
theorem parametersBoundTheMachine : Obligations.ParametersBoundTheMachine := by
  intro q
  refine ⟨q.reset_sp_toNat, fun s hs => ⟨MachineParams.step_of_memSize_le_pc hs, fun i hf => ?_⟩⟩
  refine ⟨State.fetch_ok_le_memSize hf, fun a ha => ?_⟩
  rw [MachineParams.step_of_fetch_ok hs hf, execAt_of_find_regOperands ha]

/-- Settles O53: the sizes are the defaults of `MachineParams`, at which `execAt` is `exec`. -/
theorem machineAtR9Values : Obligations.MachineAtR9Values := by
  refine ⟨⟨rfl, rfl, rfl, rfl, rfl, rfl, rfl⟩, fun p => ?_, MachineParams.step_eq Params.thisHardware⟩
  exact ⟨MachineParams.reset_eq p, MachineParams.boot_eq p, MachineParams.step_eq p⟩

end Sys2Proof.Machine

/-! ## The state: what an instruction changes (10_state.md)

One lemma for each part of the state: what a completed instruction leaves there, by the rules of `Completes`. The
statements about the state are assembled from them. -/

namespace Sys2Proof

/-- An instruction with a register operand is two bytes long at least. -/
theorem Instr.two_le_width_of_mem_regOperands {i : Instr} {a : Byte} (h : a ∈ i.regOperands) : 2 ≤ i.width := by
  cases i with
  | hlt | ret => cases h
  | push | pop | prn | call | jmp | jeq | jne | not => exact Nat.le_refl 2
  | _ => exact Nat.le_succ 2

end Sys2Proof

namespace Sys2Proof.Machine

/-! ### The program counter -/

/-- The sum of phase P is exact while it fits the register (R84). -/
theorem State.advance_pc_toNat {s : State} {w : Nat} (h : s.pc.toNat + w ≤ 256) :
    (s.advance w).pc.toNat = s.pc.toNat + w := by
  rw [State.advance_pc, BitVec.toNat_add, BitVec.toNat_ofNat]
  omega

/-- A completed instruction advances `pc` past itself or assigns a byte to it. -/
theorem Completes.pc_eq {i : Instr} {s t : State} (h : Completes i s t) :
    t.pc = (s.advance i.width).pc ∨ ∃ v : Byte, t.pc = Ptr.ofByte v := by
  cases h with
  | call | ret | jmp | jeqTaken | jneTaken => exact .inr ⟨_, rfl⟩
  | _ => exact .inl rfl

theorem Completes.pc_le {i : Instr} {s t : State} (h : Completes i s t) (hw : s.pc.toNat + i.width ≤ 256) :
    t.pc.toNat ≤ 256 := by
  obtain e | ⟨v, e⟩ := h.pc_eq
  · rw [e, State.advance_pc_toNat hw]
    exact hw
  · rw [e, Ptr.ofByte_toNat]
    exact Nat.le_of_lt (Nat.lt_of_lt_of_le v.isLt (by decide))

/-! ### The stack pointer and memory -/

theorem Completes.sp_le {i : Instr} {s t : State} (h : Completes i s t) (hsp : s.sp.toNat ≤ 256) :
    t.sp.toNat ≤ 256 := by
  cases h with
  | push _ h0 | call _ _ h0 => exact (State.sp_pred s h0).trans_le (by omega)
  | pop _ h1 | ret h1 => exact (State.sp_succ s h1).trans_le h1
  | _ => exact hsp

theorem Completes.mem_wf {i : Instr} {s t : State} (h : Completes i s t) (hm : Memory.wf s.mem = true) :
    Memory.wf t.mem = true := by
  cases h with
  | push _ h0 h1 | call _ _ h0 h1 => exact Memory.wf_write _ _ _ (by omega) hm
  | _ => exact hm

/-! ### The flags -/

/-- Exactly one flag is set by a compare (R116). -/
theorem compareFlags_mem (va vb : Byte) :
    compareFlags va vb ∈ [(⟨true, false, false⟩ : Flags), ⟨false, true, false⟩, ⟨false, false, true⟩] := by
  obtain h | h | h := Nat.lt_trichotomy va.toNat vb.toNat
  · have hne : va ≠ vb := fun e => by simp [e] at h
    simp [compareFlags, BitVec.ult, h, hne, h.le]
  · simp [compareFlags, BitVec.ult, BitVec.eq_of_toNat_eq h]
  · have hne : va ≠ vb := fun e => by simp [e] at h
    simp [compareFlags, BitVec.ult, h, hne, h.le]

/-- A completed instruction leaves the flags alone, or is a CMP and compares two registers (R102). -/
theorem Completes.flags_eq {i : Instr} {s t : State} (h : Completes i s t) :
    t.flags = s.flags ∨ (∃ a b, i = .cmp a b) ∧ ∃ va vb : Byte, t.flags = compareFlags va vb := by
  cases h with
  | cmp => exact .inr ⟨⟨_, _, rfl⟩, _, _, rfl⟩
  | _ => exact .inl rfl

/-- No two flags are set (R28). -/
def Flags.Exclusive (f : Flags) : Prop := (f.e && f.l) = false ∧ (f.e && f.g) = false ∧ (f.l && f.g) = false

theorem Flags.exclusive_compareFlags (va vb : Byte) : (compareFlags va vb).Exclusive := by
  have h := compareFlags_mem va vb
  simp only [List.mem_cons, List.not_mem_nil, or_false] at h
  obtain h | h | h := h <;> rw [h] <;> exact ⟨rfl, rfl, rfl⟩

theorem Completes.flags_exclusive {i : Instr} {s t : State} (h : Completes i s t) (hf : s.flags.Exclusive) :
    t.flags.Exclusive := by
  obtain e | ⟨-, va, vb, e⟩ := h.flags_eq <;> rw [e]
  · exact hf
  · exact Flags.exclusive_compareFlags va vb

/-! ### The run state and the fault record -/

theorem Completes.fault_eq {i : Instr} {s t : State} (h : Completes i s t) : t.fault = s.fault := by
  cases h <;> rfl

theorem Completes.status_eq {i : Instr} {s t : State} (h : Completes i s t) :
    t.status = s.status ∨ i = .hlt ∧ t.status = .halted := by
  cases h with
  | hlt => exact .inr ⟨rfl, rfl⟩
  | _ => exact .inl rfl

/-! ### What a fault records -/

/-- A byte that the fetch misses is the one at 256, of an instruction that begins at 254 or later (R186). -/
theorem State.fetch_noByte {p : Params} {s : State} {k : Nat} (h : s.fetch p = .error (.noByte k))
    (hpc : s.pc.toNat ≤ 256) : s.pc.toNat + k = 256 ∧ 254 ≤ s.pc.toNat := by
  obtain ⟨hk, hlt, hw⟩ := decodeFrom_noByte h
  have hge : 256 ≤ s.pc.toNat + k := (s.memRead_none _).mp hk
  have hread : ∀ j, j < k → s.pc.toNat + j < 256 := fun j hj =>
    Nat.lt_of_not_le fun hle => hlt j hj (s.memRead_of_ge _ hle)
  obtain rfl | ⟨_, m, -, -, hkm, hm⟩ := hw
  · omega
  · have := hread (k - 1)
    omega

/-- The fault of a missing byte records what R181 allows. -/
theorem FaultRecord.legal_of_fetch_noByte {p : Params} {s : State} {k : Nat}
    (h : s.fetch p = .error (.noByte k)) (hpc : s.pc.toNat ≤ 256) :
    FaultRecord.legal ⟨.memoryBounds, s.pc, BitVec.ofNat 9 (s.pc.toNat + k)⟩ := by
  obtain ⟨hk, h254⟩ := State.fetch_noByte h hpc
  rw [hk]
  exact ⟨h254, hpc, rfl⟩

/-- The fault of an unknown opcode records what R181 allows. -/
theorem FaultRecord.legal_of_fetch_unknownOpcode {p : Params} {s : State} {op : Byte}
    (h : s.fetch p = .error (.unknownOpcode op)) :
    FaultRecord.legal ⟨.unknownOpcode, s.pc, Ptr.ofByte op⟩ := by
  have hpc : s.pc.toNat < 256 := (State.memRead_some (decodeFrom_unknownOpcode h).1).1
  have hop := op.isLt
  simp only [FaultRecord.legal, Ptr.ofByte_toNat]
  omega

/-- The fault an instruction raises where it was fetched records what R181 allows. -/
theorem Raises.legal {i : Instr} {s : State} {c : Cause} {v : Ptr} (h : Raises i s c v)
    (hw : s.pc.toNat + i.width ≤ 256) (hsp : s.sp.toNat ≤ 256) : FaultRecord.legal ⟨c, s.pc, v⟩ := by
  cases h with
  | @registerIndex _ _ a ha =>
    have hwidth : 2 ≤ i.width := Instr.two_le_width_of_mem_regOperands (List.mem_of_find?_eq_some ha)
    have hge : 8 ≤ a.toNat := by simpa using List.find?_some ha
    have hlt := a.isLt
    simp only [FaultRecord.legal, Ptr.ofByte_toNat]
    omega
  | div _ hb | mod _ hb =>
    have hwidth : s.pc.toNat + 3 ≤ 256 := hw
    simp only [FaultRecord.legal, Ptr.ofByte_toNat]
    omega
  | push _ h1 | call _ _ h1 | pop _ h1 =>
    have hwidth : s.pc.toNat + 2 ≤ 256 := hw
    simp only [FaultRecord.legal]
    omega
  | ret h1 =>
    have hwidth : s.pc.toNat + 1 ≤ 256 := hw
    simp only [FaultRecord.legal]
    omega
  | callAddress _ hp =>
    have hpc : s.pc.toNat + 2 = 256 := Nat.le_antisymm hw hp
    simp only [FaultRecord.legal, hpc]
    exact ⟨by omega, rfl⟩

/-! ### The invariant -/

/-- Fault entry keeps the invariant when the record is one that R181 allows: nothing else changes (R184, R185). -/
theorem State.Inv.raise {s : State} {c : Cause} {v : Ptr} (hi : s.Inv) (hc : c ≠ .none)
    (hl : FaultRecord.legal ⟨c, s.pc, v⟩) : (s.raise c v).Inv where
  pc_le := hi.pc_le
  sp_le := hi.sp_le
  mem_wf := hi.mem_wf
  flags_exclusive := hi.flags_exclusive
  fault_legal := hl
  running_no_fault := by cases c <;> simp [Cause.statusAfter]
  halted_cause := by cases c <;> simp [Cause.statusAfter]
  faulted_cause := by cases c <;> simp [Cause.statusAfter] at hc ⊢
  fault_pc := fun _ => rfl

/-- A completed instruction of a `RUNNING` CORE keeps the invariant: no fault is recorded before it or after it. -/
theorem State.Inv.completes {i : Instr} {s t : State} (hi : s.Inv) (hs : s.status = .running)
    (hw : s.pc.toNat + i.width ≤ 256) (h : Completes i s t) : t.Inv := by
  have hnone : t.fault.cause = .none := by rw [h.fault_eq, hi.running_no_fault hs]
  exact {
    pc_le := h.pc_le hw
    sp_le := h.sp_le hi.sp_le
    mem_wf := h.mem_wf hi.mem_wf
    flags_exclusive := h.flags_exclusive hi.flags_exclusive
    fault_legal := h.fault_eq ▸ hi.fault_legal
    running_no_fault := fun _ => hnone
    halted_cause := fun _ => .inl hnone
    faulted_cause := fun e => by
      obtain e' | ⟨-, e'⟩ := h.status_eq <;> simp [e', hs] at e
    fault_pc := fun e => absurd hnone e }

/-- Settles O13: a step does nothing, takes a fault of the fetch or of the instruction, or completes the instruction. -/
theorem stepKeepsInvariant : Obligations.StepKeepsInvariant := by
  intro p s t hi h
  obtain ⟨-, rfl⟩ | ⟨-, k, hf, rfl⟩ | ⟨-, op, hf, rfl⟩ | ⟨hs, i, hf, h⟩ := stepWith_cases h
  · exact hi
  · exact hi.raise (by decide) (FaultRecord.legal_of_fetch_noByte hf hi.pc_le)
  · exact hi.raise (by decide) (FaultRecord.legal_of_fetch_unknownOpcode hf)
  · have hw := State.fetch_ok_le hf
    obtain ⟨c, v, hr, rfl⟩ | hc := exec_cases h
    · exact hi.raise hr.cause_ne_none (hr.legal hw hi.sp_le)
    · exact hi.completes hs hw hc

/-- Settles O14, field by field. -/
theorem invariantAtReset : Obligations.InvariantAtReset where
  pc_le := by decide
  sp_le := by decide
  mem_wf := rfl
  flags_exclusive := ⟨rfl, rfl, rfl⟩
  fault_legal := ⟨rfl, rfl⟩
  running_no_fault := fun _ => rfl
  halted_cause := nofun
  faulted_cause := nofun
  fault_pc := fun h => absurd rfl h

/-! ### Where a completed step leaves `pc` -/

/-- A step of a `RUNNING` CORE that leaves no fault recorded completes the instruction it fetched. -/
theorem completes_of_stepWith {p : Params} {i : Instr} {s t : State} (hs : s.status = .running)
    (hf : s.fetch p = .ok i) (h : stepWith p s = .next t) (ht : t.fault.cause = .none) : Completes i s t := by
  rw [stepWith_ok hs hf] at h
  obtain ⟨c, v, hr, rfl⟩ | hc := exec_cases h
  · exact absurd ht hr.cause_ne_none
  · exact hc

/-- The register an operand byte names, read as the naturals of the statements are. -/
theorem State.regs_getElem?_toNat (s : State) {a : Nat} (ha : a < 8) :
    s.regs[a]?.map BitVec.toNat = some (s.reg ⟨a, ha⟩).toNat := by
  rw [Vector.getElem?_eq_getElem ha]
  rfl

/-- A register's value assigned to `pc` (R160). -/
theorem State.regs_getElem?_toNat_setPc (s u : State) {a : Nat} (ha : a < 8) :
    s.regs[a]?.map BitVec.toNat = some (u.setPc (s.reg ⟨a, ha⟩)).pc.toNat := by
  rw [s.regs_getElem?_toNat ha, State.setPc_pc, Ptr.ofByte_toNat]

/-- Settles O15: the rule of `Completes` for each instruction says where `pc` is left. -/
theorem pcAfterCompletedStep : Obligations.PcAfterCompletedStep := by
  intro p i s t _ hs hf h ht
  have hw := State.fetch_ok_le hf
  have hc := completes_of_stepWith hs hf h ht
  refine ⟨hc.pc_le hw, ?_⟩
  cases hc with
  | call ha | jmp ha => exact s.regs_getElem?_toNat_setPc _ ha
  | ret h1 =>
    show (s.memRead s.sp.toNat).map BitVec.toNat = _
    rw [State.memRead_eq s _ h1, State.setPc_pc, Ptr.ofByte_toNat]
    rfl
  | jeqTaken ha he | jneTaken ha he =>
    show ite _ _ _
    rw [if_pos he]
    exact s.regs_getElem?_toNat_setPc _ ha
  | jeqSkip _ he | jneSkip _ he =>
    show ite _ _ _
    rw [if_neg (by simp [he])]
    exact State.advance_pc_toNat hw
  | _ => exact State.advance_pc_toNat hw

/-! ### What an instruction depends on -/

/-- The faults of phases V and E depend on `pc`, `sp` and the registers the operands name, and on nothing else. -/
theorem Raises.congr {i : Instr} {s u : State} {c : Cause} {v : Ptr} (h : Raises i s c v) (hpc : u.pc = s.pc)
    (hsp : u.sp = s.sp)
    (hreg : ∀ a ∈ i.regOperands, ∀ ha : a.toNat < 8, u.reg ⟨a.toNat, ha⟩ = s.reg ⟨a.toNat, ha⟩) :
    Raises i u c v := by
  cases h with
  | registerIndex h => exact .registerIndex h
  | @div _ a b ha hb h0 => exact .div ha hb (hreg b (by simp [Instr.regOperands]) hb ▸ h0)
  | @mod _ a b ha hb h0 => exact .mod ha hb (hreg b (by simp [Instr.regOperands]) hb ▸ h0)
  | push ha h => exact hsp ▸ .push ha (hsp ▸ h)
  | pop ha h => exact hsp ▸ .pop ha (hsp ▸ h)
  | callAddress ha hp => exact hpc ▸ .callAddress ha (hpc ▸ hp)
  | call ha hp h => exact hsp ▸ .call ha (hpc ▸ hp) (hsp ▸ h)
  | ret h => exact hsp ▸ .ret (hsp ▸ h)

/-! ### The flags -/

/-- Only CMP writes the flags, and only JEQ and JNE read them, `fl.E` alone (R102): with other flags that JEQ and JNE do
not tell apart, any other instruction completes alike. -/
theorem Completes.withFlags {i : Instr} {s t : State} {f : Flags} (h : Completes i s t)
    (hcmp : ∀ a b, i ≠ .cmp a b) (hf : f.e = s.flags.e ∨ ∀ a, i ≠ .jeq a ∧ i ≠ .jne a) :
    Completes i { s with flags := f } { t with flags := f } := by
  cases h with
  | cmp => exact absurd rfl (hcmp _ _)
  | jeqTaken ha he => exact .jeqTaken ha ((hf.resolve_right fun h => (h _).1 rfl).trans he)
  | jeqSkip ha he => exact .jeqSkip ha ((hf.resolve_right fun h => (h _).1 rfl).trans he)
  | jneTaken ha he => exact .jneTaken ha ((hf.resolve_right fun h => (h _).2 rfl).trans he)
  | jneSkip ha he => exact .jneSkip ha ((hf.resolve_right fun h => (h _).2 rfl).trans he)
  | _ => constructor <;> assumption

theorem exec_flags_eq {i : Instr} {s t : State} (hcmp : ∀ a b, i ≠ .cmp a b) (h : exec i s = .next t) :
    t.flags = s.flags := by
  obtain ⟨c, v, -, rfl⟩ | h := exec_cases h
  · rfl
  · exact h.flags_eq.resolve_right fun ⟨⟨a, b, e⟩, _⟩ => hcmp a b e

theorem exec_withFlags {i : Instr} {s t : State} {f : Flags} (hcmp : ∀ a b, i ≠ .cmp a b)
    (hf : f.e = s.flags.e ∨ ∀ a, i ≠ .jeq a ∧ i ≠ .jne a) (h : exec i s = .next t) :
    exec i { s with flags := f } = .next { t with flags := f } := by
  obtain ⟨c, v, hr, rfl⟩ | h := exec_cases h
  · exact exec_of_raises (hr.congr rfl rfl fun _ _ _ => rfl)
  · exact exec_of_completes (h.withFlags hcmp hf)

/-- A step that changes the flags fetched a CMP. -/
theorem stepWith_flags_ne {p : Params} {s t : State} (h : stepWith p s = .next t) (hne : t.flags ≠ s.flags) :
    ∃ a b, s.fetch p = .ok (.cmp a b) := by
  obtain ⟨-, rfl⟩ | ⟨-, _, -, rfl⟩ | ⟨-, _, -, rfl⟩ | ⟨-, i, hf, h⟩ := stepWith_cases h
  iterate 3 exact absurd rfl hne
  by_contra hcmp
  exact hne (exec_flags_eq (fun a b e => hcmp ⟨a, b, e ▸ hf⟩) h)

/-- CMP overwrites the flags, whatever they were, and leaves exactly one set. -/
theorem exec_cmp_flags {a b : Byte} (s : State) (f : Flags) (ha : a.toNat < 8) (hb : b.toNat < 8) :
    exec (.cmp a b) { s with flags := f } = exec (.cmp a b) s ∧
    ∃ t : State, exec (.cmp a b) s = .next t ∧
      t.flags ∈ [(⟨true, false, false⟩ : Flags), ⟨false, true, false⟩, ⟨false, false, true⟩] := by
  have h := exec_of_completes (Completes.cmp (s := s) ha hb)
  have hf := exec_of_completes (Completes.cmp (s := { s with flags := f }) ha hb)
  exact ⟨hf.trans h.symm, _, h, compareFlags_mem _ _⟩

/-- `fl.E` decides whether JEQ and JNE branch (R164, R165). -/
theorem exec_jeq_jne_pc {a : Byte} (s : State) (ha : a.toNat < 8) (hpc : s.pc.toNat + 2 ≤ 256) :
    ∃ t u : State, exec (.jeq a) s = .next t ∧ exec (.jne a) s = .next u ∧
      t.pc.toNat = (if s.flags.e = true then s.regs[a.toNat].toNat else s.pc.toNat + 2) ∧
      u.pc.toNat = (if s.flags.e = true then s.pc.toNat + 2 else s.regs[a.toNat].toNat) := by
  have hadvance := State.advance_pc_toNat hpc
  have hjump : (s.setPc (s.reg ⟨a.toNat, ha⟩)).pc.toNat = s.regs[a.toNat].toNat := Ptr.ofByte_toNat _
  cases he : s.flags.e
  · exact ⟨_, _, exec_of_completes (.jeqSkip ha he), exec_of_completes (.jneTaken ha he), hadvance, hjump⟩
  · exact ⟨_, _, exec_of_completes (.jeqTaken ha he), exec_of_completes (.jneSkip ha he), hjump, hadvance⟩

/-- Settles O29: a lemma above for each rule. -/
theorem flagRules : Obligations.FlagRules := by
  refine ⟨rfl, fun p s t => stepWith_flags_ne, fun i s t hcmp h => ⟨exec_flags_eq hcmp h, ?_, ?_⟩,
    fun a b s f => exec_cmp_flags s f, fun a s => exec_jeq_jne_pc s⟩
  · exact fun l g => exec_withFlags hcmp (.inl rfl) h
  · exact fun hj f => exec_withFlags hcmp (.inr hj) h

/-! ### The output channel -/

/-- `run`, which answers `t` from `s`, appends `e` to the output, and does so whatever the output holds (R34). -/
def AppendsOutput (run : State → Host.Outcome State Fault Refusal) (s t : State) (e : List Byte) : Prop :=
  t.output = s.output ++ e ∧ ∀ o, run { s with output := o } = .next { t with output := o ++ e }

theorem AppendsOutput.nil {run : State → Host.Outcome State Fault Refusal} {s t : State} (ht : t.output = s.output)
    (hrun : ∀ o, run { s with output := o } = .next { t with output := o }) : AppendsOutput run s t [] := by
  refine ⟨by rw [ht, List.append_nil], fun o => ?_⟩
  rw [List.append_nil]
  exact hrun o

/-- An instruction appends nothing, or, PRN, the value of its register (R91); a fault appends nothing. -/
theorem exec_appendsOutput {i : Instr} {s t : State} (h : exec i s = .next t) :
    ∃ e, (e = [] ∨ ∃ (a : Byte) (ha : a.toNat < 8), i = .prn a ∧ e = [s.regs[a.toNat]]) ∧
      AppendsOutput (exec i) s t e := by
  obtain ⟨c, v, hr, rfl⟩ | h := exec_cases h
  · exact ⟨[], .inl rfl, .nil rfl fun o => exec_of_raises (hr.congr rfl rfl fun _ _ _ => rfl)⟩
  · cases h with
    | prn ha => exact ⟨_, .inr ⟨_, ha, rfl, rfl⟩, rfl, fun o => exec_of_completes (.prn ha)⟩
    | _ => exact ⟨[], .inl rfl, .nil rfl fun o => exec_of_completes (by constructor <;> assumption)⟩

/-- A CORE that is not `RUNNING` stays as it is (R81). -/
theorem stepWith_of_not_running {p : Params} {s : State} (hs : s.status ≠ .running) : stepWith p s = .next s :=
  stepWith_of_stopped (by cases h : s.status <;> simp [h] at hs ⊢)

/-- A step appends what the instruction it runs appends, and nothing if it runs none. -/
theorem stepWith_appendsOutput {p : Params} {s t : State} (h : stepWith p s = .next t) :
    ∃ e, (e = [] ∨ ∃ (a : Byte) (ha : a.toNat < 8), s.fetch p = .ok (.prn a) ∧ e = [s.regs[a.toNat]]) ∧
      AppendsOutput (stepWith p) s t e := by
  obtain ⟨hs, rfl⟩ | ⟨hs, k, hf, rfl⟩ | ⟨hs, op, hf, rfl⟩ | ⟨hs, i, hf, h⟩ := stepWith_cases h
  · exact ⟨[], .inl rfl, .nil rfl fun o => stepWith_of_not_running hs⟩
  · exact ⟨[], .inl rfl, .nil rfl fun o => stepWith_noByte (s := { s with output := o }) hs hf⟩
  · exact ⟨[], .inl rfl, .nil rfl fun o => stepWith_unknownOpcode (s := { s with output := o }) hs hf⟩
  · obtain ⟨e, he, ht, ho⟩ := exec_appendsOutput h
    exact ⟨e, he.imp_right fun ⟨a, ha, hi, hv⟩ => ⟨a, ha, hi ▸ hf, hv⟩, ht,
      fun o => (stepWith_ok (s := { s with output := o }) hs hf).trans (ho o)⟩

/-- A step that fetches a PRN of a register appends its value (R90). -/
theorem stepWith_prn_output {p : Params} {s t : State} {a : Byte} (ha : a.toNat < 8) (hs : s.status = .running)
    (hf : s.fetch p = .ok (.prn a)) (h : stepWith p s = .next t) : t.output = s.output ++ [s.regs[a.toNat]] := by
  rw [stepWith_ok hs hf, exec_of_completes (.prn ha), Host.Outcome.next.injEq] at h
  subst h
  rfl

/-- Settles O33, from the events of the step. -/
theorem outputChannel : Obligations.OutputChannel := by
  refine ⟨rfl, fun p s t h => ?_⟩
  obtain ⟨e, he, ht, ho⟩ := stepWith_appendsOutput h
  refine ⟨?_, fun a ha hs hf => stepWith_prn_output ha hs hf h, ?_⟩
  · obtain rfl | ⟨a, ha, hf, rfl⟩ := he
    · exact .inl (ht.trans (List.append_nil _))
    · exact .inr ⟨a, ha, hf, ht⟩
  · have hevents : outEvents s t = e := by rw [outEvents, ht, List.drop_left]
    exact hevents ▸ ho

/-! ### The registers -/

/-- A completed instruction leaves the registers alone, or writes the one its operand `a` names (R22). -/
theorem Completes.regs_eq {i : Instr} {s t : State} (h : Completes i s t) :
    t.regs = s.regs ∨
      ∃ (a : Byte) (ha : a.toNat < 8) (v : Byte), i.operands.head? = some a ∧ t.regs = s.regs.set a.toNat v ha := by
  cases h with
  | hlt | ret | push | prn | call | jmp | jeqTaken | jeqSkip | jneTaken | jneSkip | cmp => exact .inl rfl
  | ldi ha | pop ha | not ha | add ha | sub ha | mul ha | div ha | mod ha | and ha | or ha | xor ha | shl ha | shr ha =>
    exact .inr ⟨_, ha, _, rfl, rfl⟩

/-- A register that operand `a` does not name keeps its value. -/
theorem exec_regs_other {i : Instr} {s t : State} {r : Fin 8} (h : exec i s = .next t)
    (hr : i.operands.head? ≠ some (BitVec.ofNat 8 r.val)) : t.regs[r] = s.regs[r] := by
  obtain ⟨c, v, -, rfl⟩ | h := exec_cases h
  · rfl
  obtain e | ⟨a, ha, v, hhead, e⟩ := h.regs_eq
  · rw [e]
  · have hne : a.toNat ≠ r.val := fun hv => hr (by rw [hhead, ← hv, BitVec.ofNat_toNat, BitVec.setWidth_eq])
    simp [e, hne]

/-- The instructions that write no register. -/
theorem exec_regs_eq {i : Instr} {s t : State} {a b : Byte}
    (hi : i ∈ [Instr.prn a, .cmp a b, .push a, .call a, .jmp a, .jeq a, .jne a, .ret, .hlt])
    (h : exec i s = .next t) : t.regs = s.regs := by
  obtain ⟨c, v, -, rfl⟩ | h := exec_cases h
  · rfl
  simp only [List.mem_cons, List.not_mem_nil, or_false] at hi
  obtain rfl | rfl | rfl | rfl | rfl | rfl | rfl | rfl | rfl := hi <;> cases h <;> rfl

/-- Of two writes to one register the second stays. -/
theorem State.setReg_setReg_same (s : State) (r : Fin 8) (v w : Byte) :
    (s.setReg r v).setReg r w = s.setReg r w := by
  simp [State.setReg]

/-- LDI does not depend on the old value of the register it writes. -/
theorem exec_ldi_setReg {a b : Byte} (s : State) (v : Byte) (ha : a.toNat < 8) :
    exec (.ldi a b) (s.setReg ⟨a.toNat, ha⟩ v) = exec (.ldi a b) s := by
  rw [exec_of_completes (.ldi ha), exec_of_completes (.ldi ha), State.setReg_setReg_same]

/-- POP of a stack that is not empty does not depend on the old value of the register it writes. -/
theorem exec_pop_setReg {a : Byte} (s : State) (v : Byte) (ha : a.toNat < 8) (hsp : s.sp.toNat < 256) :
    exec (.pop a) (s.setReg ⟨a.toNat, ha⟩ v) = exec (.pop a) s := by
  rw [exec_of_completes (.pop (s := s.setReg ⟨a.toNat, ha⟩ v) ha hsp), exec_of_completes (.pop ha hsp)]
  exact congrArg (fun u : State => Host.Outcome.next (u.advance 2))
    (State.setReg_setReg_same { s with sp := s.sp + 1 } ⟨a.toNat, ha⟩ v _)

/-! ### Renaming the registers -/

/-- A renamed operand names the renamed register. -/
theorem renameOperand_toNat (π : Equiv.Perm (Fin 8)) {a : Byte} (ha : a.toNat < 8) :
    (renameOperand π a).toNat = (π ⟨a.toNat, ha⟩).val := by
  have := (π ⟨a.toNat, ha⟩).isLt
  rw [renameOperand, dif_pos ha, BitVec.toNat_ofNat]
  omega

theorem renameOperand_lt (π : Equiv.Perm (Fin 8)) {a : Byte} (ha : a.toNat < 8) : (renameOperand π a).toNat < 8 :=
  renameOperand_toNat π ha ▸ (π ⟨a.toNat, ha⟩).isLt

theorem renameOperand_refl (a : Byte) : renameOperand (Equiv.refl _) a = a := by
  by_cases ha : a.toNat < 8 <;> simp [renameOperand, ha]

theorem renameInstr_refl (i : Instr) : renameInstr (Equiv.refl _) i = i := by
  cases i <;> simp only [renameInstr, renameOperand_refl]

/-- A state with the registers changed by `f`. -/
def State.mapRegs (f : Vector Byte 8 → Vector Byte 8) (s : State) : State := { s with regs := f s.regs }

/-- `f` changes the registers so that the register of the renamed operand is in the new ones what the register `a` names
was in the old ones: they read alike, and a write to the one is a write to the other. -/
structure RenamesOperand (π : Equiv.Perm (Fin 8)) (f : Vector Byte 8 → Vector Byte 8) (a : Byte) : Prop where
  read : ∀ (ha : a.toNat < 8) (regs : Vector Byte 8),
    (f regs)[(renameOperand π a).toNat]'(renameOperand_lt π ha) = regs[a.toNat]
  write : ∀ (ha : a.toNat < 8) (regs : Vector Byte 8) (v : Byte),
    f (regs.set a.toNat v) = (f regs).set (renameOperand π a).toNat v (renameOperand_lt π ha)

section Rename

variable {π : Equiv.Perm (Fin 8)} {f : Vector Byte 8 → Vector Byte 8}

theorem RenamesOperand.reg {a : Byte} (h : RenamesOperand π f a) (s : State) (ha : a.toNat < 8) :
    (s.mapRegs f).reg ⟨(renameOperand π a).toNat, renameOperand_lt π ha⟩ = s.reg ⟨a.toNat, ha⟩ :=
  h.read ha s.regs

/-- A register write and what an instruction of width `w` does after it. -/
theorem RenamesOperand.setReg_advance {a : Byte} (h : RenamesOperand π f a) (s : State) (ha : a.toNat < 8) (v : Byte)
    (w : Nat) :
    ((s.setReg ⟨a.toNat, ha⟩ v).advance w).mapRegs f =
      ((s.mapRegs f).setReg ⟨(renameOperand π a).toNat, renameOperand_lt π ha⟩ v).advance w :=
  congrArg (fun regs => State.advance { s with regs := regs } w) (h.write ha s.regs v)

/-- A completed instruction uses the registers through its operands only: with registers that `f` renames for each of
them, the renamed instruction completes in the renamed state. -/
theorem Completes.rename {i : Instr} {s t : State} (h : Completes i s t)
    (hops : ∀ a ∈ i.regOperands, RenamesOperand π f a) :
    Completes (renameInstr π i) (s.mapRegs f) (t.mapRegs f) := by
  cases h with
  | hlt => exact .hlt
  | ret h1 => exact .ret h1
  | jeqSkip ha he => exact .jeqSkip (renameOperand_lt π ha) he
  | jneSkip ha he => exact .jneSkip (renameOperand_lt π ha) he
  | prn ha | push ha | call ha | jmp ha | jeqTaken ha | jneTaken ha =>
    rw [← (hops _ List.mem_cons_self).reg s ha]
    constructor <;> assumption
  | ldi ha =>
    rw [(hops _ List.mem_cons_self).setReg_advance s ha]
    constructor
  | pop ha =>
    rw [(hops _ List.mem_cons_self).setReg_advance _ ha]
    constructor
    assumption
  | not ha =>
    have hA := hops _ List.mem_cons_self
    rw [hA.setReg_advance s ha, ← hA.reg s ha]
    constructor
  | cmp ha hb =>
    rw [← (hops _ List.mem_cons_self).reg s ha, ← (hops _ (.tail _ List.mem_cons_self)).reg s hb]
    constructor
  | add ha hb | sub ha hb | mul ha hb | and ha hb | or ha hb | xor ha hb | shl ha hb | shr ha hb =>
    have hA := hops _ List.mem_cons_self
    rw [hA.setReg_advance s ha, ← hA.reg s ha, ← (hops _ (.tail _ List.mem_cons_self)).reg s hb]
    constructor
  | div ha hb h0 | mod ha hb h0 =>
    have hA := hops _ List.mem_cons_self
    have hB := hops _ (.tail _ List.mem_cons_self)
    rw [← hB.reg s hb] at h0
    rw [hA.setReg_advance s ha, ← hA.reg s ha, ← hB.reg s hb]
    constructor
    assumption

end Rename

/-- A write to a register that operand `a` does not name leaves what `a` names alone. -/
theorem RenamesOperand.set_other {r : Fin 8} {a : Byte} (v : Byte) (hne : a.toNat ≠ r.val) :
    RenamesOperand (Equiv.refl _) (fun regs => regs.set r v) a where
  read _ regs := by simp [renameOperand_refl, hne.symm]
  write _ regs w := by simp [renameOperand_refl, Vector.set_comm _ _ hne]

/-- A register that no operand names is neither read nor written. -/
theorem exec_set_other {i : Instr} {s t : State} {r : Fin 8} (v : Byte) (hne : ∀ a ∈ i.regOperands, a.toNat ≠ r.val)
    (h : exec i s = .next t) :
    exec i { s with regs := s.regs.set r v } = .next { t with regs := t.regs.set r v } := by
  obtain ⟨c, u, hr, rfl⟩ | h := exec_cases h
  · refine exec_of_raises (hr.congr rfl rfl fun a hmem ha => ?_)
    exact State.setReg_reg_other s r ⟨a.toNat, ha⟩ v fun e => hne a hmem (congrArg Fin.val e)
  · have hc := h.rename fun a hmem => RenamesOperand.set_other v (hne a hmem)
    rw [renameInstr_refl] at hc
    exact exec_of_completes hc

/-- Settles O30: a lemma above for each rule. -/
theorem registerUse : Obligations.RegisterUse :=
  ⟨fun _ _ _ _ v => exec_set_other v, fun _ _ _ _ hr h => exec_regs_other h hr, fun _ _ _ _ _ => exec_regs_eq,
    fun _ _ v s ha => ⟨exec_ldi_setReg s v ha, exec_pop_setReg s v ha⟩⟩

/-- Register `π r` holds what `r` held. -/
theorem RenamesOperand.ofFn (π : Equiv.Perm (Fin 8)) (a : Byte) :
    RenamesOperand π (fun regs => Vector.ofFn fun r => regs[π.symm r]) a where
  read ha regs := by
    have hfin : (⟨(renameOperand π a).toNat, renameOperand_lt π ha⟩ : Fin 8) = π ⟨a.toNat, ha⟩ :=
      Fin.ext (renameOperand_toNat π ha)
    simp [hfin]
  write ha regs v := by
    ext k hk
    have hiff : a.toNat = (π.symm ⟨k, hk⟩).val ↔ (renameOperand π a).toNat = k := by
      rw [renameOperand_toNat π ha, ← Fin.ext_iff (a := ⟨a.toNat, ha⟩), Equiv.eq_symm_apply, Fin.ext_iff]
    simp [Vector.getElem_set, hiff]

/-- Settles O31: a step that completes without a fault uses the registers through its operands only. -/
theorem registersAreAlike : Obligations.RegistersAreAlike := by
  intro π i s t _ h ht
  obtain ⟨c, v, hr, rfl⟩ | hc := exec_cases h
  · exact absurd ht hr.cause_ne_none
  · exact exec_of_completes (hc.rename fun a _ => RenamesOperand.ofFn π a)

/-! ### The ports -/

/-- Settles O49, by the constructors of `Status` and `Cause`. -/
theorem portCodes : Obligations.PortCodes := by
  intro s
  refine ⟨?_, ?_, rfl, rfl⟩
  · show s.status.code.toNat = _
    cases s.status <;> rfl
  · show s.fault.cause.code.toNat = _
    cases s.fault.cause <;> rfl

end Sys2Proof.Machine

/-! ## Memory: its frame, and its bytes as instructions (20_memory.md)

What a completed instruction leaves in memory and in `sp`, by the rules of `Completes`; and the fetch of an instruction
whose encoding lies at `pc`, whatever wrote it there. -/

namespace Sys2Proof

/-- The decoder reads back an encoding, from any source that holds its bytes (R70). -/
theorem decodeFrom_of_encode {p : Params} (hd : p.Distinct) {i : Instr} (hi : p.decodes i.mnemonic = true)
    {f : Nat → Option Byte} (hf : ∀ k, k < i.width → f k = (encode p i)[k]?) : decodeFrom p f = .ok i := by
  have h0 : f 0 = some (p.opcodeMap i.mnemonic) := hf 0 (by rw [i.width_eq_length_encode p]; exact Nat.succ_pos _)
  rw [decodeFrom_known h0 (decodeOpcode_opcodeMap hd hi)]
  cases i with
  | hlt | ret => rfl
  | push a | pop a | prn a | call a | jmp a | jeq a | jne a | not a =>
    have h1 : f 1 = some a := hf 1 (show 1 < 2 by decide)
    rw [h1]
    rfl
  | ldi a b | add a b | sub a b | mul a b | div a b | mod a b | cmp a b | and a b | or a b | xor a b | shl a b
  | shr a b =>
    have h1 : f 1 = some a := hf 1 (show 1 < 3 by decide)
    have h2 : f 2 = some b := hf 2 (show 2 < 3 by decide)
    rw [h1, h2]
    rfl

end Sys2Proof

namespace Sys2Proof.Machine

/-! ### What changes in memory and in `sp` -/

/-- A completed instruction leaves memory alone, or, PUSH and CALL, writes the byte below the old `sp` (R42). -/
theorem Completes.mem_eq {i : Instr} {s t : State} (h : Completes i s t) :
    t.mem = s.mem ∨
      (∃ a, i = .push a ∨ i = .call a) ∧ ∃ k v, k + 1 = s.sp.toNat ∧ t.mem = Memory.write s.mem k v := by
  cases h with
  | push _ h0 => exact .inr ⟨⟨_, .inl rfl⟩, _, _, Nat.sub_add_cancel h0, rfl⟩
  | call _ _ h0 => exact .inr ⟨⟨_, .inr rfl⟩, _, _, Nat.sub_add_cancel h0, rfl⟩
  | _ => exact .inl rfl

/-- A completed instruction leaves `sp` alone unless it is PUSH, CALL, POP or RET (R27). -/
theorem Completes.sp_eq {i : Instr} {s t : State} (h : Completes i s t) :
    t.sp = s.sp ∨ ∃ a, i = .push a ∨ i = .call a ∨ i = .pop a ∨ i = .ret := by
  cases h with
  | push => exact .inr ⟨_, .inl rfl⟩
  | call => exact .inr ⟨_, .inr (.inl rfl)⟩
  | pop => exact .inr ⟨_, .inr (.inr (.inl rfl))⟩
  | ret => exact .inr ⟨0, .inr (.inr (.inr rfl))⟩
  | _ => exact .inl rfl

/-- A write to one cell leaves every other byte, whatever else of the state changes. -/
theorem State.memRead_of_mem_eq_write {s t : State} {j k : Nat} {v : Byte} (h : t.mem = Memory.write s.mem j v)
    (hk : k ≠ j) : t.memRead k = s.memRead k := by
  simp only [State.memRead, h, Memory.read_write_other _ _ _ _ hk]

theorem exec_memRead_eq {i : Instr} {s t : State} {k : Nat} (h : exec i s = .next t)
    (hk : (∀ a, i ≠ .push a ∧ i ≠ .call a) ∨ k + 1 ≠ s.sp.toNat) : t.memRead k = s.memRead k := by
  obtain ⟨c, v, -, rfl⟩ | h := exec_cases h
  · exact s.raise_memRead c v k
  obtain e | ⟨⟨a, ha⟩, j, v, hj, e⟩ := h.mem_eq
  · exact State.memRead_congr e k
  · have hne : k + 1 ≠ s.sp.toNat := hk.resolve_left fun hi => ha.elim (hi a).1 (hi a).2
    exact State.memRead_of_mem_eq_write e (by omega)

theorem exec_sp_eq {i : Instr} {s t : State} (h : exec i s = .next t)
    (hi : ∀ a, i ≠ .push a ∧ i ≠ .call a ∧ i ≠ .pop a ∧ i ≠ .ret) : t.sp = s.sp := by
  obtain ⟨c, v, -, rfl⟩ | h := exec_cases h
  · exact s.raise_sp c v
  · exact h.sp_eq.resolve_right fun ⟨a, ha⟩ => by simp [hi a] at ha

/-- Settles O32: a fault leaves memory and `sp` alone, and a completed instruction changes them by its rule. -/
theorem memoryAndSpFrame : Obligations.MemoryAndSpFrame :=
  fun _ _ _ h => ⟨fun _ => exec_memRead_eq h, exec_sp_eq h⟩

/-! ### A stored byte as an instruction -/

/-- PUSH leaves the register's value at the new `sp`. -/
theorem exec_push_memRead_sp {a : Byte} {s : State} (ha : a.toNat < 8) (h0 : 0 < s.sp.toNat)
    (h1 : s.sp.toNat ≤ 256) (hm : Memory.wf s.mem = true) :
    ∃ t : State, exec (.push a) s = .next t ∧ t.memRead t.sp.toNat = some s.regs[a.toNat] := by
  refine ⟨_, exec_of_completes (.push ha h0 h1), ?_⟩
  rw [State.advance_sp, State.sp_pred s h0, State.advance_memRead]
  exact (State.memRead_write { s with sp := s.sp - 1 } _ _ _ (by omega) hm).trans (if_pos rfl)

/-- An instruction without operands is fetched where its opcode byte lies. -/
theorem State.fetch_of_opcode {p : Params} (hd : p.Distinct) {i : Instr} (hi : p.decodes i.mnemonic = true)
    (hops : i.operands = []) {s : State} (h : s.memRead s.pc.toNat = some (p.opcodeMap i.mnemonic)) :
    s.fetch p = .ok i := by
  refine decodeFrom_of_encode hd hi fun k hk => ?_
  obtain rfl : k = 0 := by simpa [i.width_eq_length_encode p, encode, hops] using hk
  exact h

/-- Settles O36: the fetch reads memory alone, where PUSH left the opcode byte. -/
theorem pushedByteIsExecuted : Obligations.PushedByteIsExecuted := by
  intro p hd i a s ha hi hreg h0 h1 hm
  obtain ⟨t, ht, hread⟩ := exec_push_memRead_sp ha h0 h1 hm
  refine ⟨t, ht, fun u hu hmem hpc => stepWith_ok hu ?_⟩
  have hop : u.memRead u.pc.toNat = some (p.opcodeMap i.mnemonic) := by
    rw [hpc, State.memRead_congr hmem, hread, hreg]
  obtain rfl | rfl := hi <;> exact State.fetch_of_opcode hd rfl rfl hop

end Sys2Proof.Machine

/-! ## Encoding: the decoder and the encoder (30_encoding.md)

What `decode` answers, in terms of the fetch of the first bytes, and which opcode bytes phase D knows. -/

namespace Sys2Proof

/-! ### Opcode bytes -/

/-- The opcode byte of a row that takes no part in decoding is no other row's, and decodes as nothing (R67). -/
theorem decodeOpcode_opcodeMap_of_not_decodes {p : Params} (hd : p.Distinct) {m : Mnemonic} (hm : p.decodes m = false) :
    decodeOpcode p (p.opcodeMap m) = none := by
  refine decodeOpcode_none_of fun n hn e => ?_
  rw [hd n m e, hm] at hn
  cases hn

/-- Phase D knows the opcode bytes of the rows that take part in decoding (R66, R67). -/
theorem decodeOpcode_isSome_iff {p : Params} (hd : p.Distinct) (op : Byte) :
    (decodeOpcode p op).isSome = true ↔ op ∈ (Mnemonic.all.filter p.decodes).map p.opcodeMap := by
  simp only [List.mem_map, List.mem_filter, Mnemonic.mem_all, true_and, Option.isSome_iff_exists]
  constructor
  · rintro ⟨m, hm⟩
    exact ⟨m, decodeOpcode_some hm⟩
  · rintro ⟨m, hm, rfl⟩
    exact ⟨m, decodeOpcode_opcodeMap hd hm⟩

/-- The width column of R62. -/
theorem Mnemonic.width_eq (m : Mnemonic) :
    m.width =
      if m ∈ [.hlt, .ret] then 1
      else if m ∈ [.push, .pop, .prn, .call, .jmp, .jeq, .jne, .not] then 2
      else 3 := by
  cases m <;> rfl

/-! ### Phases D and O -/

/-- An opcode byte that phase D does not know is rejected before any operand is asked for (R67, R69). -/
theorem decodeFrom_of_decodeOpcode_none {p : Params} {f : Nat → Option Byte} {op : Byte} (h0 : f 0 = some op)
    (hop : decodeOpcode p op = none) : decodeFrom p f = .error (.unknownOpcode op) := by
  simp only [decodeFrom, h0, hop]

/-- The row of a decoded instruction is the one its opcode byte has. -/
theorem decodeFrom_ok_mnemonic_eq {p : Params} {f : Nat → Option Byte} {op : Byte} {m : Mnemonic} {i : Instr}
    (h0 : f 0 = some op) (hop : decodeOpcode p op = some m) (h : decodeFrom p f = .ok i) : i.mnemonic = m := by
  obtain ⟨op', h0', hop'⟩ := decodeFrom_ok_mnemonic h
  obtain rfl : op = op' := Option.some.inj (h0.symm.trans h0')
  exact Option.some.inj (hop'.symm.trans hop)

/-- The row of a decoded instruction takes part in decoding. -/
theorem decodeFrom_ok_decodes {p : Params} {f : Nat → Option Byte} {i : Instr} (h : decodeFrom p f = .ok i) :
    p.decodes i.mnemonic = true := by
  obtain ⟨_, _, hop⟩ := decodeFrom_ok_mnemonic h
  exact (decodeOpcode_some hop).1

/-! ### Lists of bytes -/

theorem decode_eq_ok_iff {p : Params} {bytes rest : List Byte} {i : Instr} :
    decode p bytes = .ok (i, rest) ↔ decodeFrom p (bytes[·]?) = .ok i ∧ bytes.drop i.width = rest := by
  unfold decode
  split
  · next j hj =>
    rw [hj, Except.ok.injEq, Except.ok.injEq, Prod.mk.injEq]
    exact and_congr_right fun hji => by rw [hji]
  · next r hr => simp [hr]

/-- A list that an instruction is decoded from begins with its encoding. -/
theorem encode_prefix_of_decodeFrom {p : Params} {bytes : List Byte} {i : Instr}
    (h : decodeFrom p (bytes[·]?) = .ok i) : encode p i <+: bytes := by
  refine List.prefix_iff_getElem?.mpr fun k hk => ?_
  rw [decodeFrom_ok_bytes h k (by rwa [i.width_eq_length_encode p])]
  exact List.getElem?_eq_getElem hk

end Sys2Proof

namespace Sys2Proof.Machine

/-! ### The round trip -/

/-- Settles O1: the first bytes of the list are the encoding, and `width` many are dropped. -/
theorem encodeThenDecode : Obligations.EncodeThenDecode := by
  intro p hd i rest hi
  have hlen := i.width_eq_length_encode p
  refine decode_eq_ok_iff.mpr ⟨decodeFrom_of_encode hd hi fun k hk => ?_, ?_⟩
  · exact List.getElem?_append_left (hlen ▸ hk)
  · rw [hlen, List.drop_left]

/-- Settles O2: what stands after the encoding is what `decode` leaves. -/
theorem decodeThenEncode : Obligations.DecodeThenEncode := by
  intro p bytes rest i h
  obtain ⟨hi, rfl⟩ := decode_eq_ok_iff.mp h
  obtain ⟨tail, rfl⟩ := encode_prefix_of_decodeFrom hi
  rw [i.width_eq_length_encode p, List.drop_left]
  exact ⟨rfl, decodeFrom_ok_decodes hi⟩

/-- Settles O3: phase D looks at the opcode byte alone, and the width is the row's. -/
theorem widthFollowsOpcode : Obligations.WidthFollowsOpcode := by
  refine fun p op f h0 => ⟨decodeFrom_of_decodeOpcode_none h0, fun m i hop hi => ?_⟩
  have hm := decodeFrom_ok_mnemonic_eq h0 hop hi
  exact ⟨hm, hm ▸ i.mnemonic.width_eq⟩

/-! ### SUB and DIV -/

/-- At the opcode byte of a row that takes no part in decoding, a step raises `UNKNOWN_OPCODE` (R67). -/
theorem stepWith_of_not_decodes {p : Params} (hd : p.Distinct) {m : Mnemonic} (hm : p.decodes m = false) {s : State}
    (hs : s.status = .running) (h : s.memRead s.pc.toNat = some (p.opcodeMap m)) :
    stepWith p s = .next (s.raise .unknownOpcode (Ptr.ofByte (p.opcodeMap m))) :=
  stepWith_unknownOpcode hs (decodeFrom_of_decodeOpcode_none h (decodeOpcode_opcodeMap_of_not_decodes hd hm))

/-- A step runs the instruction of two operands whose three bytes lie at `pc` (R60, R82). -/
theorem stepWith_of_two_operands {p : Params} (hd : p.Distinct) {i : Instr} (hi : p.decodes i.mnemonic = true)
    {a b : Byte} (hops : i.operands = [a, b]) {s : State} (hs : s.status = .running)
    (h0 : s.memRead s.pc.toNat = some (p.opcodeMap i.mnemonic)) (h1 : s.memRead (s.pc.toNat + 1) = some a)
    (h2 : s.memRead (s.pc.toNat + 2) = some b) : stepWith p s = exec i s := by
  refine stepWith_ok hs (decodeFrom_of_encode hd hi fun k hk => ?_)
  have henc : encode p i = [p.opcodeMap i.mnemonic, a, b] := congrArg (_ :: ·) hops
  rw [i.width_eq_length_encode p, henc] at hk
  rw [henc]
  match k, hk with
  | 0, _ => exact h0
  | 1, _ => exact h1
  | 2, _ => exact h2

/-- Settles O16: whether the two rows take part in decoding is the parameter. -/
theorem subDivFollowParameter : Obligations.SubDivFollowParameter := by
  refine fun p hd s a b hs => ⟨fun hp m hm hop => ?_, fun hp h1 h2 => ⟨fun hop => ?_, fun hop => ?_⟩⟩
  · have hdec : p.decodes m = false := by
      obtain rfl | rfl : m = .sub ∨ m = .div := by simpa using hm
      all_goals exact hp
    rw [stepWith_of_not_decodes hd hdec hs hop, Ptr.ofByte_eq_ofNat]
    rfl
  · exact stepWith_of_two_operands hd (i := .sub a b) hp rfl hs hop h1 h2
  · exact stepWith_of_two_operands hd (i := .div a b) hp rfl hs hop h1 h2

/-! ### The default map -/

/-- The opcode bytes that phase D knows under the default map, as naturals. -/
theorem decodeOpcode_default_isSome_iff (subDiv : Bool) (program : List Byte) (op : Byte) :
    (decodeOpcode ⟨defaultOpcodeMap, subDiv, program⟩ op).isSome = true ↔
      op.toNat ∈ ((Mnemonic.all.filter (Params.decodes ⟨defaultOpcodeMap, subDiv, program⟩)).map
        defaultOpcodeMap).map BitVec.toNat := by
  rw [decodeOpcode_isSome_iff (defaultOpcodeMap_distinct subDiv program)]
  exact (List.mem_map_of_injective fun _ _ => BitVec.eq_of_toNat_eq).symm

/-- Settles O5: the bytes of the decoded rows compute to the listed ones, which stand in the order of the rows. -/
theorem defaultMapDecodedBytes : Obligations.DefaultMapDecodedBytes :=
  fun program op =>
    ⟨decodeOpcode_default_isSome_iff false program op, decodeOpcode_default_isSome_iff true program op⟩

/-- Settles O6: each word is the encoding of its instruction and is read back by O1, save 0xA1, the byte of SUB, whose
row this hardware does not decode. -/
theorem specWordsDecode : Obligations.SpecWordsDecode := by
  have roundTrip := encodeThenDecode Params.thisHardware (defaultOpcodeMap_distinct false _)
  exact ⟨roundTrip (.ldi 0 8) [] rfl, roundTrip (.prn 5) [0x01] rfl, roundTrip .hlt [] rfl,
    roundTrip (.add 0 1) [] rfl, roundTrip (.not 4) [] rfl, roundTrip (.push 3) [] rfl, roundTrip (.call 1) [] rfl,
    roundTrip .ret [0x02] rfl, rfl⟩

end Sys2Proof.Machine

/-! ## The Control Unit: the step, its faults and the end of a run (40_control_unit.md)

The fetch as a function of the instruction's own bytes; that every instruction and every step answers a next state;
phase V; and where a run ends and what is observed of it. -/

namespace Sys2Proof

/-- Phases F, D and O depend on the instruction's own bytes alone (R69, R87). -/
theorem decodeFrom_congr {p : Params} {f g : Nat → Option Byte} {i : Instr} (h : decodeFrom p f = .ok i)
    (hg : ∀ k, k < i.width → g k = f k) : decodeFrom p g = .ok i := by
  obtain ⟨op, h0, hop⟩ := decodeFrom_ok_mnemonic h
  have hw : i.width = i.mnemonic.format.width := rfl
  have g0 : g 0 = some op := (hg 0 (by rw [i.width_eq_length_encode p]; exact Nat.succ_pos _)).trans h0
  rw [← h, decodeFrom_known h0 hop, decodeFrom_known g0 hop]
  cases hf : i.mnemonic.format with
  | n => rfl
  | r => rw [hg 1 (by rw [hw, hf]; decide)]
  | rr | ri => rw [hg 1 (by rw [hw, hf]; decide), hg 2 (by rw [hw, hf]; decide)]

end Sys2Proof

namespace Sys2Proof.Machine

/-! ### The fetch -/

/-- Settles O4: the bytes read are the encoding, and the decoder looks at no others. -/
theorem fetchReadsOnlyTheInstruction : Obligations.FetchReadsOnlyTheInstruction := by
  refine fun p f g i h => ⟨fun k hk => ?_, decodeFrom_congr h⟩
  have hfk := decodeFrom_ok_bytes h k hk
  have hk' : k < (encode p i).length := i.width_eq_length_encode p ▸ hk
  exact ⟨hfk, by rw [hfk, List.getElem?_eq_getElem hk', Option.isSome_some]⟩

/-- Settles O7: the bytes at `pc` are read back as the instruction; this hardware's step is so by definition. -/
theorem stepRunsEncodedInstruction : Obligations.StepRunsEncodedInstruction := by
  refine ⟨fun p hd i s hi hs hbytes => stepWith_ok hs (decodeFrom_of_encode hd hi fun k hk => ?_), fun _ => rfl⟩
  have hk' : k < (encode p i).length := i.width_eq_length_encode p ▸ hk
  exact (hbytes k hk').trans (List.getElem?_eq_getElem hk').symm

/-! ### Every instruction and every step answers a next state -/

/-- Phase V raises a fault, which is a next state, or leaves the answer to the rest of the instruction. -/
theorem withReg_answers_next {a : Byte} {s : State} {k : Fin 8 → Host.Outcome State Fault Refusal}
    (hk : ∀ j, ∃ t, k j = .next t) : ∃ t, withReg a s k = .next t := by
  by_cases ha : a.toNat < 8
  · rw [withReg_of_lt a s k ha]
    exact hk _
  · exact ⟨_, withReg_of_ge a s k (Nat.le_of_not_lt ha)⟩

theorem aluCommit_answers_next (j : Fin 8) (b : Byte) (w : Nat) (s : State) (out : AluOut) :
    ∃ t, aluCommit j b w s out = .next t := by
  cases out <;> exact ⟨_, rfl⟩

theorem aluTwo_answers_next (op : Byte → Byte → AluOp) (a b : Byte) (s : State) :
    ∃ t, aluTwo op a b s = .next t :=
  withReg_answers_next fun _ => withReg_answers_next fun _ => aluCommit_answers_next _ b 3 s _

/-- Every instruction answers a next state: a fault is one too (R184). -/
theorem exec_answers_next (i : Instr) (s : State) : ∃ t, exec i s = .next t := by
  cases i with
  | hlt => exact ⟨_, rfl⟩
  | ret =>
    rw [exec, execRet_eq]
    cases s.pop <;> exact ⟨_, rfl⟩
  | push a =>
    rw [exec, execPush_eq]
    refine withReg_answers_next fun j => ?_
    cases s.push (s.reg j) <;> exact ⟨_, rfl⟩
  | pop a =>
    rw [exec, execPop_eq]
    refine withReg_answers_next fun j => ?_
    cases s.pop <;> exact ⟨_, rfl⟩
  | call a =>
    rw [exec, execCall_eq]
    refine withReg_answers_next fun j => ?_
    split_ifs
    · exact ⟨_, rfl⟩
    · cases s.push (BitVec.ofNat 8 (s.pc.toNat + 2)) <;> exact ⟨_, rfl⟩
  | prn | jmp | jeq | jne | ldi => exact withReg_answers_next fun _ => ⟨_, rfl⟩
  | not a => exact withReg_answers_next fun _ => aluCommit_answers_next _ a 2 s _
  | add | sub | mul | div | mod | cmp | and | or | xor | shl | shr => exact aluTwo_answers_next _ _ _ s

theorem stepWith_answers_next (p : Params) (s : State) : ∃ t, stepWith p s = .next t := by
  by_cases hs : s.status = .running
  · cases hf : s.fetch p with
    | ok i =>
      rw [stepWith_ok hs hf]
      exact exec_answers_next i s
    | error r =>
      cases r with
      | noByte k => exact ⟨_, stepWith_noByte hs hf⟩
      | unknownOpcode op => exact ⟨_, stepWith_unknownOpcode hs hf⟩
  · exact ⟨s, stepWith_of_not_running hs⟩

/-- Settles O12: no meaning and no phase of the step ends in anything but a next state. -/
theorem stepAlwaysAnswersNext : Obligations.StepAlwaysAnswersNext :=
  ⟨exec_answers_next, stepWith_answers_next⟩

/-! ### Phase V -/

/-- The first register operand above 7 is the one `REGISTER_INDEX` records (R88). -/
theorem exec_of_find_regOperands {i : Instr} {a : Byte} (s : State)
    (h : i.regOperands.find? (fun x => decide (8 ≤ x.toNat)) = some a) :
    exec i s = .next { s with status := .faulted, fault := ⟨.registerIndex, s.pc, BitVec.ofNat 9 a.toNat⟩ } := by
  rw [exec_of_raises (.registerIndex h), Ptr.ofByte_eq_ofNat]
  rfl

/-- Settles O17: the lists of register operands of the three kinds of instruction, and the rule of LDI. -/
theorem registerIndexFault : Obligations.RegisterIndexFault := by
  refine fun s a b => ⟨fun ha => ⟨fun mk hmk => ?_, fun mk hmk => ?_⟩, fun ha hb => ⟨fun mk hmk => ?_, ?_⟩⟩
  · have hops : (mk a).regOperands = [a] := by
      revert mk
      simp [Instr.regOperands]
    exact exec_of_find_regOperands s (by rw [hops]; exact List.find?_cons_of_pos (decide_eq_true ha))
  · obtain ⟨rest, hops⟩ : ∃ rest, (mk a b).regOperands = a :: rest := by
      revert mk
      simp [Instr.regOperands]
    exact exec_of_find_regOperands s (by rw [hops]; exact List.find?_cons_of_pos (decide_eq_true ha))
  · have hops : (mk a b).regOperands = [a, b] := by
      revert mk
      simp [Instr.regOperands]
    refine exec_of_find_regOperands s ?_
    rw [hops, List.find?_cons_of_neg (by simpa using Nat.lt_succ_of_le ha)]
    exact List.find?_cons_of_pos (decide_eq_true hb)
  · exact ⟨_, exec_of_completes (.ldi (Nat.lt_succ_of_le ha)), rfl, rfl⟩

/-! ### LDI, PRN and HLT -/

/-- Settles O18, by the rule of LDI. -/
theorem ldiResult : Obligations.LdiResult :=
  fun _ _ _ ha => exec_of_completes (.ldi ha)

/-- Settles O19, by the rule of PRN. -/
theorem prnResult : Obligations.PrnResult :=
  fun _ _ ha => exec_of_completes (.prn ha)

/-- Settles O20, by the rule of HLT. -/
theorem hltResult : Obligations.HltResult :=
  fun _ => exec_of_completes .hlt

/-! ### The run states -/

/-- Settles O8: `HALTED` and `FAULTED` are the two states that are not `RUNNING`. -/
theorem stepOfStoppedCoreDoesNothing : Obligations.StepOfStoppedCoreDoesNothing :=
  fun _ _ => stepWith_of_not_running

/-- A fault leaves `HALTED` if it is the divide by zero, and `FAULTED` if it is another (R181). -/
theorem State.raise_stops (s : State) {c : Cause} (v : Ptr) (hc : c ≠ .none) :
    ((s.raise c v).status = .halted ∧ (s.raise c v).fault.cause = .divideByZero) ∨
      ((s.raise c v).status = .faulted ∧ (s.raise c v).fault.cause ≠ .none ∧
        (s.raise c v).fault.cause ≠ .divideByZero) := by
  rw [State.raise_status, State.raise_fault]
  cases c with
  | none => exact absurd rfl hc
  | divideByZero => exact .inl ⟨rfl, rfl⟩
  | _ => exact .inr ⟨rfl, hc, nofun⟩

/-- Settles O46: a step takes a fault of the fetch or of the instruction, or completes the instruction, and then it is
HLT that changes `status`. -/
theorem runStopsByHltOrFault : Obligations.RunStopsByHltOrFault := by
  refine fun p s t hs h => ⟨fun ht => ?_, fun hf => ?_⟩
  · obtain ⟨hs', -⟩ | ⟨-, k, -, rfl⟩ | ⟨-, op, -, rfl⟩ | ⟨-, i, hf, h⟩ := stepWith_cases h
    · exact absurd hs hs'
    · exact .inr (s.raise_stops _ (by decide))
    · exact .inr (s.raise_stops _ (by decide))
    · obtain ⟨c, v, hr, rfl⟩ | hc := exec_cases h
      · exact .inr (s.raise_stops v hr.cause_ne_none)
      · obtain e | ⟨rfl, e⟩ := hc.status_eq
        · exact absurd (e.trans hs) ht
        · exact .inl ⟨hf, e, hc.fault_eq⟩
  · rw [stepWith_ok hs hf, exec_of_completes .hlt, Host.Outcome.next.injEq] at h
    exact h ▸ rfl

/-- A write at the load port leaves `status` alone, whether or not the cell exists (R12, R214). -/
theorem State.memWrite_getD_status (s : State) (k : Nat) (v : Byte) :
    ((s.memWrite k v).getD s).status = s.status := by
  cases h : s.memWrite k v with
  | none => rfl
  | some t =>
    obtain ⟨-, rfl⟩ := State.memWrite_some h
    rfl

/-- Settles O47: a step leaves a stopped CORE as it is and a load leaves `status`, so only reset is left. -/
theorem stoppedUntilReset : Obligations.StoppedUntilReset := by
  refine ⟨rfl, fun p s hs => ⟨runWith_of_fixed (stepWith_of_not_running hs), fun stepped q => ?_⟩⟩
  cases q with
  | reset => exact ⟨_, rfl, rfl⟩
  | load addr data =>
    refine ⟨_, rfl, ?_⟩
    cases stepped with
    | false => exact s.memWrite_getD_status _ _
    | true => rfl
  | step => exact ⟨⟨s, true⟩, by simp only [Session.serve, stepWith_of_not_running hs], rfl⟩

/-! ### The end of a run -/

/-- The state a run stops in is the state after any more steps (R81). -/
theorem EndsIn.runWith_of_le {p : Params} {s t : State} {k j : Nat} (h : EndsIn p s k t) (hkj : k ≤ j) :
    runWith p j s = .next t := by
  obtain ⟨hk, ht, -⟩ := h
  obtain ⟨d, rfl⟩ := Nat.exists_eq_add_of_le hkj
  rw [runWith_add hk]
  exact runWith_of_fixed (stepWith_of_not_running ht) d

/-- No end of a run comes before another: until an end the CORE is `RUNNING`. -/
theorem EndsIn.le {p : Params} {s t u : State} {k j : Nat} (hk : EndsIn p s k t) (hj : EndsIn p s j u) : k ≤ j := by
  obtain ⟨-, -, hbefore⟩ := hk
  obtain ⟨hu, hstopped, -⟩ := hj
  exact Nat.le_of_not_lt fun hlt => hstopped (hbefore j u hlt hu)

theorem EndsIn.unique {p : Params} {s t u : State} {k j : Nat} (hk : EndsIn p s k t) (hj : EndsIn p s j u) :
    j = k ∧ u = t := by
  have hu : runWith p j s = .next t := hk.runWith_of_le (hk.le hj)
  rw [hj.runWith_of_le le_rfl, Host.Outcome.next.injEq] at hu
  exact ⟨Nat.le_antisymm (hj.le hk) (hk.le hj), hu⟩

/-- Settles O48: of two ends neither comes before the other, and in an end a step does nothing. -/
theorem endOfRunIsUnique : Obligations.EndOfRunIsUnique :=
  fun _ _ _ _ h => ⟨fun _ _ => h.unique, fun _ => h.runWith_of_le⟩

/-- By strong induction: the first state not `RUNNING` would be an end (R94). -/
theorem neverEnds_of_not_endsIn {p : Params} {s : State} (h : ¬ ∃ t k, EndsIn p s k t) : NeverEnds p s := by
  intro k
  induction k using Nat.strong_induction_on with
  | _ k ih =>
    intro t ht
    by_contra hstopped
    exact h ⟨t, k, ht, hstopped, fun j u hj => ih j hj u⟩

theorem EndsIn.not_neverEnds {p : Params} {s t : State} {k : Nat} (h : EndsIn p s k t) : ¬ NeverEnds p s := by
  obtain ⟨hk, ht, -⟩ := h
  exact fun hn => ht (hn k t hk)

/-! ### The observation of a run -/

/-- A value once printed keeps its place: the output only grows (R34). -/
theorem runWith_output_getElem?_mono {p : Params} {s t u : State} {j k n : Nat} {v : Byte} (hjk : j ≤ k)
    (ht : runWith p j s = .next t) (hu : runWith p k s = .next u) (hv : t.output[n]? = some v) :
    u.output[n]? = some v := by
  obtain ⟨hlen, rfl⟩ := List.getElem?_eq_some_iff.mp hv
  exact List.prefix_iff_getElem?.mp (runWith_output_mono hjk ht hu) n hlen

theorem OutputAt.unique {p : Params} {s : State} {n : Nat} {v w : Byte} (hv : OutputAt p s n v)
    (hw : OutputAt p s n w) : v = w := by
  obtain ⟨j, t, ht, hv⟩ := hv
  obtain ⟨k, u, hu, hw⟩ := hw
  obtain hjk | hkj := Nat.le_total j k
  · exact Option.some.inj ((runWith_output_getElem?_mono hjk ht hu hv).symm.trans hw)
  · exact Option.some.inj (hv.symm.trans (runWith_output_getElem?_mono hkj hu ht hw))

/-- The output is written in order. -/
theorem OutputAt.pred {p : Params} {s : State} {n : Nat} {v : Byte} (h : OutputAt p s (n + 1) v) :
    ∃ w, OutputAt p s n w := by
  obtain ⟨k, t, ht, hv⟩ := h
  obtain ⟨hlen, -⟩ := List.getElem?_eq_some_iff.mp hv
  exact ⟨_, k, t, ht, List.getElem?_eq_getElem (Nat.lt_of_succ_lt hlen)⟩

/-- Every run has an output sequence. -/
theorem exists_outputSequence (p : Params) (s : State) :
    ∃ out : Nat → Option Byte, ∀ n v, out n = some v ↔ OutputAt p s n v := by
  have hvalue : ∀ n, ∃ o : Option Byte, ∀ v, o = some v ↔ OutputAt p s n v := by
    intro n
    by_cases hn : ∃ w, OutputAt p s n w
    · obtain ⟨w, hw⟩ := hn
      exact ⟨some w, fun v => ⟨fun e => Option.some.inj e ▸ hw, fun hv => congrArg some (hw.unique hv)⟩⟩
    · exact ⟨none, fun v => ⟨nofun, fun hv => absurd ⟨v, hv⟩ hn⟩⟩
  exact Classical.skolem.mp hvalue

/-- A run has an end or an output sequence without one (R94). -/
theorem exists_observes (p : Params) (s : State) : ∃ o, Observes p s o := by
  by_cases hend : ∃ t k, EndsIn p s k t
  · obtain ⟨t, ht⟩ := hend
    exact ⟨.finished t, ht⟩
  · obtain ⟨out, hout⟩ := exists_outputSequence p s
    exact ⟨.endless out, neverEnds_of_not_endsIn hend, hout⟩

theorem Observes.unique {p : Params} {s : State} {o o' : Observation} (h : Observes p s o) (h' : Observes p s o') :
    o' = o := by
  cases o with
  | finished t =>
    obtain ⟨k, hk⟩ := h
    cases o' with
    | finished u =>
      obtain ⟨j, hj⟩ := h'
      exact congrArg _ (hk.unique hj).2
    | endless out' => exact absurd h'.1 hk.not_neverEnds
  | endless out =>
    obtain ⟨hn, hout⟩ := h
    cases o' with
    | finished u =>
      obtain ⟨j, hj⟩ := h'
      exact absurd hn hj.not_neverEnds
    | endless out' =>
      obtain ⟨-, hout'⟩ := h'
      exact congrArg _ (funext fun n => Option.ext fun v => (hout' n v).trans (hout n v).symm)

/-- Settles O51: a run ends or it does not, its end and its values are unique, and its output is written in order. -/
theorem observationOfRun : Obligations.ObservationOfRun := by
  refine fun p s => ⟨?_, fun out hobs n hn => ?_⟩
  · obtain ⟨o, ho⟩ := exists_observes p s
    exact ⟨o, ho, fun o' => ho.unique⟩
  · obtain ⟨-, hout⟩ := hobs
    rw [Option.eq_none_iff_forall_ne_some]
    intro v hv
    obtain ⟨w, hw⟩ := ((hout _ _).mp hv).pred
    rw [(hout n w).mpr hw] at hn
    cases hn

end Sys2Proof.Machine

/-! ## The ALU (41_alu.md)

The rows of the ALU's function as exact arithmetic on naturals, and what an ALU instruction does with the row it
takes; the statements about the instructions are read off the rows. -/

namespace Sys2Proof.Machine

/-! ### The rows of the table (R101) -/

/-- A result is named by its natural number. -/
theorem AluOut.result_eq_ofNat {v : Byte} {n : Nat} (h : v.toNat = n) : AluOut.result v = .result (BitVec.ofNat 8 n) :=
  congrArg AluOut.result (BitVec.toNat_eq_nat.mp h).2

section Rows

variable (va vb : Byte)

theorem alu_add : alu (.add va vb) = .result (BitVec.ofNat 8 ((va.toNat + vb.toNat) % 256)) :=
  AluOut.result_eq_ofNat (BitVec.toNat_add va vb)

/-- The borrow out of the byte adds 256 (R106). -/
theorem alu_sub :
    alu (.sub va vb) = .result (BitVec.ofNat 8
      (if vb.toNat ≤ va.toNat then va.toNat - vb.toNat else va.toNat + 256 - vb.toNat)) := by
  refine AluOut.result_eq_ofNat ((BitVec.toNat_sub va vb).trans ?_)
  have hva := va.isLt
  have hvb := vb.isLt
  split_ifs <;> omega

theorem alu_mul : alu (.mul va vb) = .result (BitVec.ofNat 8 ((va.toNat * vb.toNat) % 256)) :=
  AluOut.result_eq_ofNat (BitVec.toNat_mul va vb)

theorem alu_div :
    alu (.div va vb) = if vb.toNat = 0 then .divideByZero else .result (BitVec.ofNat 8 (va.toNat / vb.toNat)) :=
  if_congr BitVec.toNat_eq rfl (AluOut.result_eq_ofNat BitVec.toNat_udiv)

theorem alu_mod :
    alu (.mod va vb) = if vb.toNat = 0 then .divideByZero else .result (BitVec.ofNat 8 (va.toNat % vb.toNat)) :=
  if_congr BitVec.toNat_eq rfl (AluOut.result_eq_ofNat BitVec.toNat_umod)

theorem alu_and : alu (.and va vb) = .result (BitVec.ofNat 8 (va.toNat &&& vb.toNat)) :=
  AluOut.result_eq_ofNat (BitVec.toNat_and va vb)

theorem alu_or : alu (.or va vb) = .result (BitVec.ofNat 8 (va.toNat ||| vb.toNat)) :=
  AluOut.result_eq_ofNat (BitVec.toNat_or va vb)

theorem alu_xor : alu (.xor va vb) = .result (BitVec.ofNat 8 (va.toNat ^^^ vb.toNat)) :=
  AluOut.result_eq_ofNat (BitVec.toNat_xor va vb)

theorem alu_not : alu (.not va) = .result (BitVec.ofNat 8 (255 - va.toNat)) :=
  AluOut.result_eq_ofNat BitVec.toNat_not

/-- A shift to the left by the whole count multiplies by its power of two, modulo 256 (R114). -/
theorem alu_shl : alu (.shl va vb) = .result (BitVec.ofNat 8 ((va.toNat * 2 ^ vb.toNat) % 256)) :=
  AluOut.result_eq_ofNat (by rw [BitVec.toNat_shiftLeft, Nat.shiftLeft_eq])

/-- A shift to the right by the whole count divides by its power of two (R115). -/
theorem alu_shr : alu (.shr va vb) = .result (BitVec.ofNat 8 (va.toNat / 2 ^ vb.toNat)) :=
  AluOut.result_eq_ofNat (by rw [BitVec.toNat_ushiftRight, Nat.shiftRight_eq_div_pow])

/-- The flags of a compare are the order of the naturals (R116). -/
theorem compareFlags_eq :
    compareFlags va vb =
      ⟨decide (va.toNat = vb.toNat), decide (va.toNat < vb.toNat), decide (va.toNat > vb.toNat)⟩ := by
  have he : (va == vb) = decide (va.toNat = vb.toNat) := decide_eq_decide.mpr BitVec.toNat_eq
  rw [compareFlags, he, BitVec.ult_eq_decide, BitVec.ult_eq_decide]

theorem alu_cmp :
    alu (.cmp va vb) =
      .flags ⟨decide (va.toNat = vb.toNat), decide (va.toNat < vb.toNat), decide (va.toNat > vb.toNat)⟩ :=
  congrArg AluOut.flags (compareFlags_eq va vb)

end Rows

/-- Settles O21: each row is a lemma above. -/
theorem aluTable : Obligations.AluTable := fun va vb =>
  ⟨alu_add va vb, alu_sub va vb, alu_mul va vb, alu_div va vb, alu_mod va vb, alu_and va vb, alu_or va vb,
    alu_xor va vb, alu_not va, alu_shl va vb, alu_shr va vb, alu_cmp va vb⟩

/-! ### What an instruction does with its row (R100) -/

section TwoOperands

variable {op : Byte → Byte → AluOp} {a b : Byte} {s : State} (ha : a.toNat < 8) (hb : b.toNat < 8)

/-- A result goes to `x[a]`, and nothing else changes but `pc` (R104). -/
theorem aluTwo_of_result {v : Byte} (h : alu (op s.regs[a.toNat] s.regs[b.toNat]) = .result v) :
    aluTwo op a b s = .next { s with regs := s.regs.set a.toNat v ha, pc := s.pc + 3 } :=
  (aluTwo_of_lt op a b s ha hb).trans (congrArg (aluCommit ⟨a.toNat, ha⟩ b 3 s) h)

/-- The flags are written, and nothing else changes but `pc` (R116). -/
theorem aluTwo_of_flags {f : Flags} (h : alu (op s.regs[a.toNat] s.regs[b.toNat]) = .flags f) :
    aluTwo op a b s = .next { s with flags := f, pc := s.pc + 3 } :=
  (aluTwo_of_lt op a b s ha hb).trans (congrArg (aluCommit ⟨a.toNat, ha⟩ b 3 s) h)

/-- A result that `x[a]` already holds changes nothing but `pc`. -/
theorem aluTwo_of_result_self (h : alu (op s.regs[a.toNat] s.regs[b.toNat]) = .result s.regs[a.toNat]) :
    aluTwo op a b s = .next { s with pc := s.pc + 3 } := by
  rw [aluTwo_of_result ha hb h, Vector.set_getElem_self]

end TwoOperands

/-- The result of NOT goes to `x[a]`, and nothing else changes but `pc` (R104, R113). -/
theorem execNot_of_result {a v : Byte} {s : State} (ha : a.toNat < 8) (h : alu (.not s.regs[a.toNat]) = .result v) :
    execNot a s = .next { s with regs := s.regs.set a.toNat v ha, pc := s.pc + 2 } :=
  (withReg_of_lt a s _ ha).trans (congrArg (aluCommit ⟨a.toNat, ha⟩ a 2 s) h)

/-! ### The instructions -/

/-- Settles O22, by the rows of ADD, SUB and MUL. -/
theorem addSubMulResult : Obligations.AddSubMulResult := fun _ _ _ ha hb =>
  ⟨aluTwo_of_result ha hb (alu_add _ _), aluTwo_of_result ha hb (alu_sub _ _), aluTwo_of_result ha hb (alu_mul _ _)⟩

/-- Settles O23, by the rows of DIV and MOD, whose divisor is not 0. -/
theorem divModResult : Obligations.DivModResult := fun _ _ _ ha hb h0 =>
  ⟨aluTwo_of_result ha hb ((alu_div _ _).trans (if_neg h0)), aluTwo_of_result ha hb ((alu_mod _ _).trans (if_neg h0))⟩

/-- Settles O25, by the rows of AND, OR, XOR and NOT. -/
theorem logicResult : Obligations.LogicResult := fun _ _ _ ha hb =>
  ⟨aluTwo_of_result ha hb (alu_and _ _), aluTwo_of_result ha hb (alu_or _ _), aluTwo_of_result ha hb (alu_xor _ _),
    execNot_of_result ha (alu_not _)⟩

/-- Settles O26, by the rows of SHL and SHR. -/
theorem shiftResult : Obligations.ShiftResult := fun _ _ _ ha hb =>
  ⟨aluTwo_of_result ha hb (alu_shl _ _), aluTwo_of_result ha hb (alu_shr _ _)⟩

/-- Settles O27, by the row of CMP. -/
theorem cmpResult : Obligations.CmpResult := fun _ _ _ ha hb =>
  aluTwo_of_flags ha hb (alu_cmp _ _)

/-! ### One register twice (R103) -/

/-- MOD of a value that is not 0 by itself leaves 0 (R103). -/
theorem alu_mod_self {v : Byte} (h : v ≠ 0) : alu (.mod v v) = .result 0 :=
  (if_neg h).trans (congrArg AluOut.result BitVec.umod_self)

/-- A value compares with itself as equal alone (R103, R116). -/
theorem compareFlags_self (v : Byte) : compareFlags v v = ⟨true, false, false⟩ := by
  simp [compareFlags_eq]

/-- Settles O28: each row at two equal values, and the fault of MOD. -/
theorem sameRegisterTwice : Obligations.SameRegisterTwice := by
  refine fun a s ha => ⟨?_, ?_, ?_, ?_, ?_, ?_, fun h => ?_, fun h => ?_⟩
  · rw [Nat.two_mul]
    exact aluTwo_of_result ha ha (alu_add _ _)
  · exact aluTwo_of_result ha ha (congrArg AluOut.result (BitVec.sub_self _))
  · exact aluTwo_of_result ha ha (congrArg AluOut.result BitVec.xor_self)
  · exact aluTwo_of_result_self ha ha (congrArg AluOut.result BitVec.and_self)
  · exact aluTwo_of_result_self ha ha (congrArg AluOut.result BitVec.or_self)
  · exact aluTwo_of_flags ha ha (congrArg AluOut.flags (compareFlags_self _))
  · exact aluTwo_of_result ha ha (alu_mod_self h)
  · rw [exec_of_raises (.mod ha ha h), Ptr.ofByte_eq_ofNat]
    rfl

end Sys2Proof.Machine

/-! ## The stack (42_stack.md)

The statements about one instruction are its rule in `Completes` or `Raises`; the round trip of R147 is put together
from the results of PUSH and of POP. -/

namespace Sys2Proof.Machine

/-! ### PUSH and POP -/

/-- Every read after a push: the pushed byte at the new `sp`, and at any other address what was there (R141). -/
theorem State.memRead_pushed {s : State} (v : Byte) (h0 : 0 < s.sp.toNat) (h1 : s.sp.toNat ≤ 256)
    (hm : Memory.wf s.mem = true) (k : Nat) :
    State.memRead { s with sp := s.sp - 1, mem := Memory.write s.mem (s.sp.toNat - 1) v } k =
      if k = s.sp.toNat - 1 then some v else s.memRead k :=
  State.memRead_write { s with sp := s.sp - 1 } _ k v (by omega) hm

/-- Settles O34, by the rule of PUSH. -/
theorem pushResult : Obligations.PushResult := fun _ s ha h0 h1 hm =>
  ⟨_, exec_of_completes (.push ha h0 h1), rfl, s.sp_pred h0, Memory.wf_write _ _ _ (by omega) hm,
    State.memRead_pushed (s.reg ⟨_, ha⟩) h0 h1 hm⟩

/-- Settles O35, by the rule of POP. -/
theorem popResult : Obligations.PopResult := fun _ s ha h =>
  ⟨_, s.memRead_eq _ h, s.sp_succ h, exec_of_completes (.pop ha h)⟩

/-- Settles O38: the pushed byte is the one at the `sp` that POP finds, and `sp` goes back up by the one it went
down. -/
theorem pushThenPop : Obligations.PushThenPop := by
  intro a b s ha hb h0 h1 hm
  obtain ⟨t, hpush, -, hsp, -, hread⟩ := pushResult a s ha h0 h1 hm
  refine ⟨t, hpush, fun u husp hmem => ?_⟩
  have hu : u.sp.toNat = s.sp.toNat - 1 := by rw [husp, hsp]
  obtain ⟨v, hv, hsucc, hpop⟩ := popResult b u hb (by omega)
  have hback : u.sp + 1 = s.sp := BitVec.eq_of_toNat_eq (by omega)
  have hbyte : u.memRead u.sp.toNat = some s.regs[a.toNat] := by
    rw [State.memRead_congr hmem, hread, if_pos hu]
  have hval : v = s.regs[a.toNat] := Option.some.inj (hv.symm.trans hbyte)
  exact ⟨_, hpop, (Vector.getElem_set_self hb).trans hval, hback⟩

/-! ### The faults of the stack -/

/-- A fault whose value is `sp` records what `sp` holds, and nothing else changes (R184, R186). -/
theorem exec_of_raises_sp {i : Instr} {s : State} {c : Cause} {v : Ptr} (h : Raises i s c s.sp) (hv : s.sp = v) :
    exec i s = .next { s with status := c.statusAfter, fault := ⟨c, s.pc, v⟩ } := by
  subst hv
  exact exec_of_raises h

/-- Settles O37, by the rules of the stack faults. -/
theorem stackFaults : Obligations.StackFaults := by
  refine fun a s ha => ⟨fun h => ?_, fun h => ?_⟩
  · have hsp : s.sp.toNat = 0 := congrArg BitVec.toNat h
    exact ⟨exec_of_raises_sp (.push ha (.inl hsp)) h, fun hp => exec_of_raises_sp (.call ha hp (.inl hsp)) h⟩
  · have hsp : 256 ≤ s.sp.toNat := (congrArg BitVec.toNat h).ge
    exact ⟨exec_of_raises_sp (.pop ha hsp) h, exec_of_raises_sp (.ret hsp) h⟩

end Sys2Proof.Machine

/-! ## Control transfer (43_control_transfer.md)

The statements about one instruction are its rule in `Completes` or `Raises`; the return address of R166 and the round
trip of R167 are put together from the results of CALL and of RET. -/

namespace Sys2Proof.Machine

/-! ### Assigning a byte to `pc` -/

/-- `setPc` in the numerals of the statements: the byte is widened with zeros (R160). -/
theorem State.setPc_eq (s : State) (v : Byte) : s.setPc v = { s with pc := BitVec.ofNat 9 v.toNat } :=
  congrArg (fun t => { s with pc := t }) (Ptr.ofByte_eq_ofNat v)

/-! ### CALL and RET -/

/-- Settles O39, by the rule of CALL. -/
theorem callResult : Obligations.CallResult := fun _ s ha hpc h0 h1 hm =>
  ⟨_, exec_of_completes (.call ha hpc h0 h1), rfl, Ptr.ofByte_toNat _, s.sp_pred h0,
    Memory.wf_write _ _ _ (by omega) hm, State.memRead_pushed _ h0 h1 hm⟩

/-- Settles O40, by the rule of RET. -/
theorem retResult : Obligations.RetResult := fun s h =>
  ⟨_, s.memRead_eq _ h, s.sp_succ h,
    (exec_of_completes (.ret h)).trans (congrArg _ (State.setPc_eq { s with sp := s.sp + 1 } _))⟩

/-- CALL leaves at the new `sp`, one below the old, the byte that holds `pc + 2` exactly (R161, R166). -/
theorem exec_call_return_address {a : Byte} {s : State} (ha : a.toNat < 8) (hpc : s.pc.toNat + 2 ≤ 255)
    (h0 : 0 < s.sp.toNat) (h1 : s.sp.toNat ≤ 256) (hm : Memory.wf s.mem = true) :
    ∃ (t : State) (v : Byte), exec (.call a) s = .next t ∧ t.sp.toNat = s.sp.toNat - 1 ∧
      t.memRead (s.sp.toNat - 1) = some v ∧ v.toNat = s.pc.toNat + 2 := by
  obtain ⟨t, hcall, -, -, hsp, -, hread⟩ := callResult a s ha hpc h0 h1 hm
  exact ⟨t, _, hcall, hsp, (hread _).trans (if_pos rfl), Nat.mod_eq_of_lt (by omega)⟩

/-- Settles O42: RET finds the return address at the `sp` CALL left, and `sp` goes back up by the one it went down. -/
theorem callThenRet : Obligations.CallThenRet := by
  intro a s ha hpc h0 h1 hm
  obtain ⟨t, r, hcall, hsp, hread, hr⟩ := exec_call_return_address ha hpc h0 h1 hm
  refine ⟨t, hcall, fun u husp hmem => ?_⟩
  have hu : u.sp.toNat = s.sp.toNat - 1 := by rw [husp, hsp]
  obtain ⟨v, hv, hsucc, hret⟩ := retResult u (by omega)
  have hback : u.sp + 1 = s.sp := BitVec.eq_of_toNat_eq (by omega)
  have hbyte : u.memRead u.sp.toNat = some r := by rw [State.memRead_congr hmem, hu, hread]
  obtain rfl : v = r := Option.some.inj (hv.symm.trans hbyte)
  exact ⟨_, hret, (Nat.mod_eq_of_lt (by omega)).trans hr, hback⟩

/-! ### The faults of CALL at the end of memory -/

/-- The first operand byte of an instruction whose opcode byte lies at 255 is missing (R87, R186). -/
theorem State.fetch_noByte_of_operand_at_end {p : Params} (hd : p.Distinct) {m : Mnemonic} (hm : p.decodes m = true)
    (hf : m.format ≠ .n) {s : State} (hpc : s.pc.toNat = 255) (hop : s.memRead 255 = some (p.opcodeMap m)) :
    s.fetch p = .error (.noByte 1) := by
  have h0 : s.instrByte 0 = some (p.opcodeMap m) := by rw [State.instrByte, hpc, hop]
  have h1 : s.instrByte 1 = none := s.memRead_of_ge _ (by omega)
  rw [State.fetch, decodeFrom_known h0 (decodeOpcode_opcodeMap hd hm), h1]
  cases h : m.format with
  | n => exact absurd h hf
  | r | rr | ri => rfl

/-- Settles O41: the pushed byte from the result of CALL; at 254 the rule of `RETURN_ADDRESS`, and at 255 the operand
byte is missing. -/
theorem callReturnAddress : Obligations.CallReturnAddress := by
  refine fun a s ha => ⟨fun hpc h0 h1 hm => ?_, fun hpc => ?_, fun p hd hs hpc hop => ?_⟩
  · obtain ⟨t, v, hcall, -, hread, hv⟩ := exec_call_return_address ha hpc h0 h1 hm
    exact ⟨t, v, hcall, hread, hv⟩
  · rw [exec_of_raises (.callAddress ha (by omega)), hpc]
    rfl
  · rw [stepWith_noByte hs (State.fetch_noByte_of_operand_at_end hd (m := .call) rfl (by decide) hpc hop), hpc]
    rfl

/-! ### JMP, JEQ and JNE -/

/-- Settles O43, by the rules of the jumps, with `fl.E` set and clear. -/
theorem jumpResult : Obligations.JumpResult := by
  intro a s ha
  have htaken : s.setPc (s.reg ⟨a.toNat, ha⟩) = { s with pc := BitVec.ofNat 9 s.regs[a.toNat].toNat } := s.setPc_eq _
  refine ⟨htaken ▸ exec_of_completes (.jmp ha), ?_⟩
  cases he : s.flags.e with
  | false => exact ⟨exec_of_completes (.jeqSkip ha he), htaken ▸ exec_of_completes (.jneTaken ha he)⟩
  | true => exact ⟨htaken ▸ exec_of_completes (.jeqTaken ha he), exec_of_completes (.jneSkip ha he)⟩

end Sys2Proof.Machine

/-! ## Exceptions: the faults of a step and their order (60_exceptions.md)

An equation of `firstFault` for each branch of R187's order; then, for each outcome of the fetch, that the fault the
step raises is that one. The host's duties are read off the invariant. -/

namespace Sys2Proof.Machine

/-! ### Fault entry -/

/-- Fault entry in the numerals of the statements (R181, R184). -/
theorem State.raise_eq (s : State) (c : Cause) (v : Ptr) :
    s.raise c v = { s with
      status := if c = .divideByZero then .halted else .faulted
      fault := ⟨c, s.pc, BitVec.ofNat 9 v.toNat⟩ } := by
  rw [BitVec.ofNat_toNat, BitVec.setWidth_eq]
  cases c <;> rfl

/-- After a fault no step does anything, so no second fault occurs (R190). -/
theorem stepWith_raise (p : Params) (s : State) (c : Cause) (v : Ptr) :
    stepWith p (s.raise c v) = .next (s.raise c v) :=
  stepWith_of_not_running (by cases c <;> nofun)

/-! ### The branches of the spec's order (R187) -/

theorem firstFault_of_pc_gt (p : Params) {s : State} (hpc : s.pc.toNat > 255) :
    firstFault p s = some (.memoryBounds, s.pc.toNat) :=
  if_pos hpc

section Opcode

variable {p : Params} (hd : p.Distinct) {s : State} {op : Byte} (hop : s.memRead s.pc.toNat = some op)
include hd hop

theorem firstFault_of_decodeOpcode_none (hm : decodeOpcode p op = none) :
    firstFault p s = some (.unknownOpcode, op.toNat) := by
  obtain ⟨hpc, rfl⟩ := State.memRead_some hop
  rw [decodeOpcode_eq_find hd] at hm
  simp only [firstFault, if_neg (show ¬ s.pc.toNat > 255 by omega), hm]

variable {m : Mnemonic} (hm : decodeOpcode p op = some m)
include hm

theorem firstFault_of_width_gt (hw : s.pc.toNat + m.width > 256) : firstFault p s = some (.memoryBounds, 256) := by
  obtain ⟨hpc, rfl⟩ := State.memRead_some hop
  rw [decodeOpcode_eq_find hd] at hm
  simp only [firstFault, if_neg (show ¬ s.pc.toNat > 255 by omega), hm, if_pos hw]

theorem firstFault_of_width_le (hw : s.pc.toNat + m.width ≤ 256) {ops : List Byte}
    (hops : checkedOperands m.format (Memory.read s.mem (s.pc.toNat + 1)) (Memory.read s.mem (s.pc.toNat + 2)) = ops) :
    (∀ v, ops.find? (fun v => decide (v.toNat > 7)) = some v → firstFault p s = some (.registerIndex, v.toNat)) ∧
    (ops.find? (fun v => decide (v.toNat > 7)) = none →
      firstFault p s = execFault m (Memory.read s.mem (s.pc.toNat + 2)) s) := by
  obtain ⟨hpc, rfl⟩ := State.memRead_some hop
  rw [decodeOpcode_eq_find hd] at hm
  simp only [firstFault, if_neg (show ¬ s.pc.toNat > 255 by omega), hm, if_neg (Nat.not_lt.mpr hw), hops]
  exact ⟨fun v hv => by rw [hv], fun hv => by rw [hv]⟩

end Opcode

/-! ### The fetched instruction -/

/-- The operand bytes of a fetched instruction are those after its opcode byte, as many as its format has (R60). -/
theorem State.fetch_ok_operands {p : Params} {s : State} {i : Instr} (hf : s.fetch p = .ok i) :
    i.operands =
      [Memory.read s.mem (s.pc.toNat + 1), Memory.read s.mem (s.pc.toNat + 2)].take i.operands.length := by
  have hlen : i.operands.length ≤ 2 := by cases i <;> simp [Instr.operands]
  refine List.ext_getElem (by simp [hlen]) fun k hk _ => ?_
  have hread : s.memRead (s.pc.toNat + (k + 1)) = some i.operands[k] :=
    (decodeFrom_ok_bytes hf (k + 1) (by rw [i.width_eq_length_encode p]; exact Nat.succ_lt_succ hk)).trans
      (List.getElem?_eq_getElem hk)
  rw [(State.memRead_some hread).2, List.getElem_take]
  match k, Nat.lt_of_lt_of_le hk hlen with
  | 0, _ => rfl
  | 1, _ => rfl

/-- Phase V checks the register operands of an instruction whose operand bytes are `a` and `b` (R88). -/
theorem checkedOperands_eq_regOperands {i : Instr} {a b : Byte} (hops : i.operands = [a, b].take i.operands.length) :
    checkedOperands i.mnemonic.format a b = i.regOperands := by
  cases i with
  | ldi => exact congrArg (List.take 1) hops.symm
  | _ => exact hops.symm

/-- After the fetch comes phase V, then phase E (R187). -/
theorem firstFault_of_fetch_ok {p : Params} (hd : p.Distinct) {s : State} {i : Instr} (hf : s.fetch p = .ok i) :
    (∀ v, i.regOperands.find? (fun x => decide (8 ≤ x.toNat)) = some v →
      firstFault p s = some (.registerIndex, v.toNat)) ∧
    (i.regOperands.find? (fun x => decide (8 ≤ x.toNat)) = none →
      firstFault p s = execFault i.mnemonic (Memory.read s.mem (s.pc.toNat + 2)) s) := by
  obtain ⟨op, hop, hm⟩ := decodeFrom_ok_mnemonic hf
  exact firstFault_of_width_le hd hop hm (State.fetch_ok_le hf)
    (checkedOperands_eq_regOperands (State.fetch_ok_operands hf))

/-- The fault of phase E that an instruction raises is the one its rule tests first (R187). -/
theorem Raises.execFault_eq {i : Instr} {s : State} {c : Cause} {v : Ptr} {a b : Byte} (h : Raises i s c v)
    (hv : i.regOperands.find? (fun x => decide (8 ≤ x.toNat)) = none)
    (hops : i.operands = [a, b].take i.operands.length) (hpc : s.pc.toNat ≤ 256) (hsp : s.sp.toNat ≤ 256) :
    execFault i.mnemonic b s = some (c, v.toNat) := by
  cases h with
  | registerIndex h => simp [h] at hv
  | div _ hb h0 | mod _ hb h0 =>
    obtain ⟨rfl, rfl⟩ : _ = a ∧ _ = b := by simpa [Instr.operands] using hops
    exact (if_pos ((Vector.getElem?_eq_getElem hb).trans (congrArg some h0))).trans (by rw [Ptr.ofByte_toNat])
  | push _ h | pop _ h | ret h => exact if_pos (by omega)
  | callAddress _ hp =>
    refine (if_pos hp).trans ?_
    rw [BitVec.toNat_ofNat, Nat.mod_eq_of_lt (by omega)]
  | call _ hp h => exact (if_neg (by omega)).trans (if_pos (by omega))

/-- An instruction that completes meets no fault of phase E. -/
theorem Completes.execFault_eq_none {i : Instr} {s t : State} {a b : Byte} (h : Completes i s t)
    (hops : i.operands = [a, b].take i.operands.length) : execFault i.mnemonic b s = none := by
  cases h with
  | div _ hb h0 | mod _ hb h0 =>
    obtain ⟨rfl, rfl⟩ : _ = a ∧ _ = b := by simpa [Instr.operands] using hops
    exact if_neg fun h => h0 (Option.some.inj ((Vector.getElem?_eq_getElem hb).symm.trans h))
  | push _ hsp | pop _ hsp | ret hsp => exact if_neg (by omega)
  | call _ hp h0 => exact (if_neg (by omega)).trans (if_neg (by omega))
  | _ => rfl

/-- HLT alone changes `status`, and does so always (R92, R93). -/
theorem Completes.status_eq_ite {i : Instr} {s t : State} (h : Completes i s t) :
    t.status = if i = .hlt then .halted else s.status := by
  cases h <;> rfl

/-! ### The fault of a step -/

/-- A byte that the fetch misses, of an opcode or an operand, is the one at 256 (R82, R186). -/
theorem stepWith_noByte_at_256 {p : Params} {s : State} {k : Nat} (hs : s.status = .running) (hpc : s.pc.toNat ≤ 256)
    (hf : s.fetch p = .error (.noByte k)) : stepWith p s = .next (s.raise .memoryBounds 256) := by
  rw [stepWith_noByte hs hf, (State.fetch_noByte hf hpc).1]
  rfl

theorem firstFault_of_fetch_noByte {p : Params} (hd : p.Distinct) {s : State} {k : Nat} (hpc : s.pc.toNat ≤ 256)
    (hf : s.fetch p = .error (.noByte k)) : firstFault p s = some (.memoryBounds, 256) := by
  obtain ⟨hk, -⟩ := State.fetch_noByte hf hpc
  obtain ⟨-, -, rfl | ⟨op, m, hop, hm, hkm, -⟩⟩ := decodeFrom_noByte hf
  · exact (firstFault_of_pc_gt p (by omega)).trans (congrArg (fun n => some (Cause.memoryBounds, n)) hk)
  · exact firstFault_of_width_gt hd hop hm (by omega)

/-- A step raises the first fault of the spec's order, or there is none and the fetched instruction completes. -/
theorem stepWith_firstFault {p : Params} (hd : p.Distinct) {s : State} (hs : s.status = .running)
    (hpc : s.pc.toNat ≤ 256) (hsp : s.sp.toNat ≤ 256) :
    (∃ (c : Cause) (v : Ptr), firstFault p s = some (c, v.toNat) ∧ stepWith p s = .next (s.raise c v)) ∨
    (firstFault p s = none ∧ ∃ i t, s.fetch p = .ok i ∧ Completes i s t ∧ stepWith p s = .next t) := by
  cases hf : s.fetch p with
  | error r =>
    refine .inl ?_
    cases r with
    | noByte k => exact ⟨_, _, firstFault_of_fetch_noByte hd hpc hf, stepWith_noByte_at_256 hs hpc hf⟩
    | unknownOpcode op =>
      obtain ⟨hop, hm⟩ := decodeFrom_unknownOpcode hf
      refine ⟨_, _, ?_, stepWith_unknownOpcode hs hf⟩
      rw [Ptr.ofByte_toNat]
      exact firstFault_of_decodeOpcode_none hd hop hm
  | ok i =>
    have hops := State.fetch_ok_operands hf
    obtain ⟨hsome, hnone⟩ := firstFault_of_fetch_ok hd hf
    rw [stepWith_ok hs hf]
    cases hv : i.regOperands.find? (fun x => decide (8 ≤ x.toNat)) with
    | some a =>
      refine .inl ⟨_, _, ?_, exec_of_raises (.registerIndex hv)⟩
      rw [hsome a hv, Ptr.ofByte_toNat]
    | none =>
      rw [hnone hv]
      obtain ⟨t, ht⟩ := exec_answers_next i s
      obtain ⟨c, v, hr, rfl⟩ | hc := exec_cases ht
      · exact .inl ⟨c, v, hr.execFault_eq hv hops hpc hsp, ht⟩
      · exact .inr ⟨hc.execFault_eq_none hops, i, t, rfl, hc, ht⟩

/-! ### The statements about faults -/

/-- Settles O11: the two outcomes of a step, by whether the order meets a fault. -/
theorem faultsFollowSpecOrder : Obligations.FaultsFollowSpecOrder := by
  intro p hd s hs hpc hsp
  obtain ⟨c, v, hfirst, hstep⟩ | ⟨hfirst, i, t, hf, hc, hstep⟩ := stepWith_firstFault hd hs hpc hsp
  · refine ⟨fun c' v' h => ?_, fun h => by simp [hfirst] at h⟩
    obtain ⟨rfl, rfl⟩ : c = c' ∧ v.toNat = v' := by simpa [hfirst] using h
    rw [hstep, State.raise_eq]
  · refine ⟨fun c v h => by simp [hfirst] at h, fun _ => ⟨t, hstep, hc.fault_eq, ?_⟩⟩
    simp only [hc.status_eq_ite, hs, hf, Except.ok.injEq]

/-- Settles O9: the byte decodes as nothing, so the fetch gives no instruction and the step takes its fault. -/
theorem unknownOpcodeFault : Obligations.UnknownOpcodeFault := by
  intro p s op hs hop hne
  have hf : s.fetch p = .error (.unknownOpcode op) := decodeFrom_of_decodeOpcode_none hop (decodeOpcode_none_of hne)
  refine ⟨_, stepWith_unknownOpcode hs hf, ?_, rfl, stepWith_raise p s _ _⟩
  rw [State.raise_eq, Ptr.ofByte_toNat]
  rfl

/-- An instruction of a known opcode byte that does not lie wholly in memory misses a byte (R87, R186). -/
theorem State.fetch_noByte_of_width_gt {p : Params} {s : State} {op : Byte} {m : Mnemonic}
    (hop : s.memRead s.pc.toNat = some op) (hm : decodeOpcode p op = some m) (hw : s.pc.toNat + m.width > 256) :
    ∃ k, s.fetch p = .error (.noByte k) := by
  cases hf : s.fetch p with
  | ok i =>
    have hle := State.fetch_ok_le hf
    rw [Instr.width, decodeFrom_ok_mnemonic_eq hop hm hf] at hle
    omega
  | error r =>
    cases r with
    | noByte k => exact ⟨k, rfl⟩
    | unknownOpcode op' =>
      obtain ⟨hop', hm'⟩ := decodeFrom_unknownOpcode hf
      obtain rfl : op = op' := Option.some.inj (hop.symm.trans hop')
      simp [hm] at hm'

/-- Settles O10: in both clauses the fetch misses a byte. -/
theorem fetchBoundsFault : Obligations.FetchBoundsFault := by
  refine fun p s hs => ⟨fun hpc => ?_, fun op m hop hm hw => ?_⟩
  · exact stepWith_noByte_at_256 hs hpc.le (State.fetch_of_memSize_le_pc p hpc.ge)
  · obtain ⟨k, hf⟩ := State.fetch_noByte_of_width_gt hop hm hw
    exact stepWith_noByte_at_256 hs (State.memRead_some hop).1.le hf

/-- Settles O24, by the rules of DIV and MOD. -/
theorem divideByZeroFault : Obligations.DivideByZeroFault := by
  intro a b s ha hb h0 mk hmk
  have hr : Raises (mk a b) s .divideByZero (Ptr.ofByte b) := by
    obtain rfl | rfl : mk = .div ∨ mk = .mod := by simpa using hmk
    · exact .div ha hb h0
    · exact .mod ha hb h0
  refine ⟨_, exec_of_raises hr, ?_, rfl, fun p => stepWith_raise p s _ _⟩
  rw [State.raise_eq, Ptr.ofByte_toNat]
  rfl

/-! ### The host's duties -/

/-- Settles O50: the invariant says which causes each stopped state can have. -/
theorem hostDutyByEnd : Obligations.HostDutyByEnd := by
  intro s hi
  refine ⟨fun hs => ?_, fun hs hc => ?_, fun hs hc => ?_, fun hs hc => ?_, fun hs hc => ?_⟩
  · simp only [State.hostDuty, hs]
  · simp only [State.hostDuty, hs, hc]
  · simp only [State.hostDuty, hs, (hi.halted_cause hs).resolve_left hc]
  · simp only [State.hostDuty, hs, hc]
  · obtain ⟨hnone, hdiv⟩ := hi.faulted_cause hs
    simp only [State.hostDuty, hs]
    cases h : s.fault.cause with
    | none => exact absurd h hnone
    | divideByZero => exact absurd h hdiv
    | unknownOpcode => exact absurd h hc
    | memoryBounds | stackOverflow | stackUnderflow | registerIndex | returnAddress => rfl

end Sys2Proof.Machine

/-! ## Reset and the load of a program (70_reset_and_hazards.md)

What a load leaves, of a whole image and of one byte at the load port; and that the step depends on those parameters
only that the decoder reads. -/

namespace Sys2Proof.Machine

/-! ### Reset -/

/-- Every cell is 0 after reset (R36, R55). -/
theorem State.reset_memRead {k : Nat} (hk : k < 256) : State.reset.memRead k = some 0 :=
  State.reset.memRead_eq k hk

/-- Every register is 0 after reset (R36). -/
theorem State.reset_getElem_regs (r : Fin 8) : State.reset.regs[r] = 0 := by simp

/-- Settles O44, by the fields of the reset state. -/
theorem resetValues : Obligations.ResetValues :=
  ⟨fun _ _ => rfl, fun _ => State.reset_memRead, State.reset_getElem_regs, rfl, rfl, rfl, rfl, rfl, rfl⟩

/-! ### The load of an image -/

theorem loadImage_of_length_le {image : List Byte} (h : image.length ≤ 256) :
    loadImage image = some (State.reset.placeBytes 0 image) :=
  if_pos h

theorem loadImage_of_length_gt {image : List Byte} (h : 256 < image.length) : loadImage image = none :=
  if_neg (Nat.not_le.mpr h)

/-- Any canonical memory may stand in a state that has the invariant. -/
theorem State.Inv.setMem {s : State} {m : Memory} (hi : s.Inv) (hm : Memory.wf m = true) :
    { s with mem := m : State }.Inv :=
  { hi with mem_wf := hm }

/-- Placing bytes keeps the invariant: it changes memory only, and keeps its canonical form. -/
theorem State.Inv.placeBytes {s : State} (hi : s.Inv) (addr : Nat) (bytes : List Byte) :
    (s.placeBytes addr bytes).Inv := by
  rw [State.placeBytes_mem_only]
  exact hi.setMem (State.placeBytes_wf bytes s addr hi.mem_wf)

/-- After the load of an image cell `k` holds byte `k` of it, or 0 past its end (R214). -/
theorem State.reset_placeBytes_memRead (image : List Byte) {k : Nat} (hk : k < 256) :
    (State.reset.placeBytes 0 image).memRead k = some (image.getD k 0) := by
  rw [State.placeBytes_memRead image State.reset 0 k rfl hk, Nat.sub_zero, Nat.zero_add]
  by_cases hlen : k < image.length
  · rw [if_pos ⟨Nat.zero_le k, hlen⟩, List.getElem?_eq_getElem hlen, List.getD_eq_getElem _ _ hlen]
  · rw [if_neg (fun h => hlen h.2), State.reset_memRead hk, List.getD_eq_default _ _ (Nat.not_lt.mp hlen)]

/-! ### The load port and the request of a step -/

/-- A byte addresses a cell that exists, so a load before the first step writes it (R214). -/
theorem Session.serve_load_before_step (p : Params) (s : State) (addr data : Byte) :
    Session.serve p ⟨s, false⟩ (.load addr data) =
      .next ⟨{ s with mem := Memory.write s.mem addr.toNat data }, false⟩ := by
  simp [Session.serve, State.memWrite_eq s addr.toNat data addr.isLt]

/-- A step that is served is noted in the session. -/
theorem Session.stepped_of_serve_step {p : Params} {σ τ : Session} (h : σ.serve p .step = .next τ) :
    τ.stepped = true := by
  obtain ⟨t, ht⟩ := stepWith_answers_next p σ.core
  simp only [Session.serve, ht, Host.Outcome.next.injEq] at h
  exact h ▸ rfl

/-- Settles O45: an image is placed from address 0 in the state after reset, and the load port writes one cell. -/
theorem loadInterface : Obligations.LoadInterface := by
  refine ⟨fun image hlen => ?_, fun _ => loadImage_of_length_gt, fun p s addr data hm => ?_, fun _ _ _ _ => rfl,
    fun _ _ _ => Session.stepped_of_serve_step⟩
  · exact ⟨_, loadImage_of_length_le hlen, State.placeBytes_mem_only image State.reset 0,
      invariantAtReset.placeBytes 0 image, fun _ => State.reset_placeBytes_memRead image⟩
  · exact ⟨_, Session.serve_load_before_step p s addr data, rfl,
      fun k => State.memRead_write s addr.toNat k data addr.isLt hm⟩

/-! ### `DEFAULT_PROGRAM` -/

/-- Of the parameters the decoder reads `OPCODE_MAP` and `DECODE_SUB_DIV` only (R66, R67). -/
theorem decodeOpcode_with_defaultProgram (p : Params) (program : List Byte) :
    decodeOpcode { p with defaultProgram := program } = decodeOpcode p := rfl

/-- A step depends on the parameters through the decoding of the opcode byte alone. -/
theorem stepWith_congr {p q : Params} (h : decodeOpcode p = decodeOpcode q) : stepWith p = stepWith q := by
  have hfetch (s : State) : s.fetch p = s.fetch q := by simp only [State.fetch, decodeFrom, h]
  funext s
  simp only [stepWith, State.stepBy, hfetch]

/-- Settles O52: booting loads the image in either case, and the step reads the parameters through the decoder. -/
theorem defaultProgramIsTheHosts : Obligations.DefaultProgramIsTheHosts := by
  refine fun p => ⟨rfl, fun _ => rfl, fun program s => ?_⟩
  rw [stepWith_congr (decodeOpcode_with_defaultProgram p program)]

end Sys2Proof.Machine
